-- ==== Sys2Proof/Word.lean ====
section
/-!
DEFINITION. The two word types of the codec block: the unsigned byte of a stream (00_scope.md R7, R10)
and the 32-bit register (10_state.md R15), and the zero extension between them.
-/
namespace Sys2Proof

/-- A byte of a stream or of a buffer: unsigned, 0 to 255 (R7, R10). -/
abbrev Byte := BitVec 8

/-- A whole register (R15, R39): 32 bits. -/
abbrev Word := BitVec 32

/-- `zext_32(v)` of R10. No operation of the block sign-extends. -/
abbrev zext32 (v : Byte) : Word := v.setWidth 32

end Sys2Proof
end

