-- ==== Sys2Proof/Config.lean ====
section
/-!
DEFINITION. What the spec leaves to the platform (00_scope.md R8), the pixel source as plain data
(10_state.md R31), and the free values: opaque constants without a body, so that nothing can be proved of
a value that the spec calls unspecified (a "draw").
-/
namespace Sys2Proof

/-- A buffer capacity: "0 ≤ IN_CAP ≤ 2^32 − 1" (R8). -/
abbrev Cap := Fin 4294967296

/-- The parameters of one block instance (R8), fixed for its life. The three bases are "open parameters
that no rule reads" (20_memory.md R42), and no definition of the model reads them. -/
structure Config where
  inCap   : Cap
  outCap  : Cap
  regBase : Nat
  inBase  : Nat
  outBase : Nat
deriving DecidableEq, Repr, Inhabited

/-- The parameters `Sys2Proof.Machine.State.reset` carries. DESIGN CHOICE (log 5): the spec leaves them
open; 2^20 is the capacity of its own test vectors (95_test_vectors.md, "Notation"). -/
def Config.standard : Config :=
  { inCap := 1048576, outCap := 1048576, regBase := 0, inBase := 0, outBase := 0 }

/-- A sample of the pixel source, by number. DESIGN CHOICE (log 7): `Sample` is "any type" (R8); an image
holds finitely many samples, so a number names each. -/
abbrev Sample := Nat

/-- The pixel source and the threshold predicate the host binds with a PACK (R31), as plain data:
`rows` is the image, top row first and leftmost sample first, `fill` answers outside it, and `on` is true
exactly of the samples in `onSamples`. -/
structure PixelSource where
  rows      : List (List Sample)
  fill      : Sample
  onSamples : List Sample
deriving DecidableEq, Repr, Inhabited

/-- The name of an unspecified value: which stream of free values it comes from and its number there. Each
block instance draws from a stream of its own, so that nothing relates the unspecified values of two instances
(10_state.md R13, 60_exceptions.md R136). DESIGN CHOICE (log 4, log 20): the streams are the model's own; the
spec gives an instance no identifier. -/
structure Draw where
  stream : Nat
  num    : Nat
deriving DecidableEq, Repr, Inhabited

/-- The draw `k` numbers further on in the same stream. -/
def Draw.plus (d : Draw) (k : Nat) : Draw := { d with num := d.num + k }

/-- The byte at an offset of a buffer that holds nothing written there since its contents last became
unspecified; the first argument names that occasion (R30, R35, U2, U3). -/
opaque Config.freeByte : Draw → Nat → Byte

/-- ESC_RESET, by the draw of the reset (R34, U1): "No proof may assume its value". -/
opaque Config.escReset : Draw → Byte

/-- An unspecified 32-bit value, by its draw (R142, R143, U7, U9). -/
opaque Config.freeWord : Draw → Word

/-- An unspecified bit, by its draw (R142, U7). -/
opaque Config.freeBool : Draw → Bool

/-- An unspecified result code, by its draw (R142, U7). Codes 8 to 15 are never produced (U15). -/
opaque Config.freeCode : Draw → Fin 8

/-- An unspecified pixel source, by its draw (R142, U7). -/
opaque Config.freePixels : Draw → PixelSource

end Sys2Proof
end

