-- ==== Sys2Proof/Machine/Types.lean ====
section
/-!
DEFINITION. The named things of the codec block and of its host: registers, buffers, phases, operations,
result codes, hazards, the host's moves and what its reads answer.
-/
namespace Sys2Proof.Machine

/-- The nine registers, in index order (10_state.md R15). -/
inductive RegName where
  | cmd | status | escape | minRun | width | height | inLen | outLen | errOffset
deriving DecidableEq, Repr

/-- The two buffers (R28). -/
inductive Buf where
  | inBuf | outBuf
deriving DecidableEq, Repr

/-- PHASE (R32), which "mirrors STATUS.BUSY". -/
inductive Phase where
  | idle | busy
deriving DecidableEq, Repr

/-- OPL (R32): the operation of the running command. -/
inductive Op where
  | pack | encode | decode
deriving DecidableEq, Repr

/-- STATUS.RESULT (60_exceptions.md R121). The reserved codes 8 to 15 are never produced (U15), so they
have no constructor. -/
inductive ResultCode where
  | none | ok | invalidDimensions | invalidParameter | truncatedStream | malformedToken
  | capacityExceeded | illegalCommand
deriving DecidableEq, Repr

/-- A broken hazard rule, as FAULT records it (10_state.md R33): each is a host write while BUSY, which
70_reset_and_hazards.md R142 forbids. -/
inductive Hazard where
  /-- A write of a register, CMD included. -/
  | registerWrite (r : RegName)
  /-- A write of a byte of IN or OUT. -/
  | bufferWrite (b : Buf)
  /-- A change of the pixel source binding. -/
  | pixelBinding
deriving DecidableEq, Repr

/-- The two agents that can have a move at the same time (R13): the host and the block. -/
inductive Agent where
  | host | block
deriving DecidableEq, Repr

/-- One move of the host (30_encoding.md R64, 43_host_interface.md R108 to R111, R139). POLL and COPY
depend on what the host reads, so they are moves of their own, one bus transaction a step (log 28); the
other pseudo-instructions are lists of moves (Machine/Program.lean). -/
inductive Event where
  /-- `WR <reg>, v` (R108). -/
  | wr (index : Nat) (v : Word)
  /-- `RD <reg>` (R109). -/
  | rd (index : Nat)
  /-- `WRB IN[o], b` or `WRB OUT[o], b` (R110). -/
  | wrb (buf : Buf) (o : Nat) (b : Byte)
  /-- `RDB IN[o]` or `RDB OUT[o]` (R111). -/
  | rdb (buf : Buf) (o : Nat)
  /-- An access of a width that no space has (20_memory.md R39, R40, U5). -/
  | otherWidth (bits : Nat)
  /-- The host binds a pixel source and predicate (10_state.md R31, 43_host_interface.md R112). -/
  | bind (src : PixelSource)
  /-- `POLL`: repeat `RD STATUS` until bit 0 of the value is 0. -/
  | poll
  /-- `COPY`, its `RD OUT_LEN -> n`. -/
  | copy
  /-- `COPY` from offset `o` on, `n` being the length read: `RDB OUT[o]`, or the last `WR IN_LEN, n`. -/
  | copyFrom (o : Nat) (n : Word)
  /-- Reset is asserted (70_reset_and_hazards.md R139). -/
  | reset
deriving DecidableEq, Repr

/-- What one host read answered. -/
inductive Observation where
  | reg (r : RegName) (v : Word)
  | byte (buf : Buf) (o : Nat) (v : Byte)
deriving DecidableEq, Repr

end Sys2Proof.Machine
end

