-- ==== Sys2Proof/Machine/State.lean ====
section
/-!
DEFINITION. The state of one codec block instance and of the agents around it, as plain data, the reasons a
step can stop, and the state after reset.
-/
namespace Sys2Proof.Machine

/-- A byte buffer (10_state.md R28): the bytes written since the contents last became unspecified, by rising
offset, and the draw of that occasion. A byte that is not listed holds the unspecified value
`Config.freeByte epoch offset` (R30, R35; log 2). -/
structure Memory where
  cells : List Host.Cell
  epoch : Draw
deriving DecidableEq, Repr

/-- The registers that hold state (R15). CMD holds none (R16); STATUS.BUSY is `Working.phase` (R32). -/
structure Registers where
  /-- STATUS.RESULT (R17, R121). -/
  result    : ResultCode
  /-- ESCAPE[7:0]; ESCAPE[31:8] are reserved and read 0 (R18, R25). -/
  escape    : Byte
  /-- MIN_RUN (R19). -/
  minRun    : Word
  /-- WIDTH (R20). -/
  width     : Word
  /-- HEIGHT (R21). -/
  height    : Word
  /-- IN_LEN (R22). -/
  inLen     : Word
  /-- OUT_LEN (R23). -/
  outLen    : Word
  /-- ERR_OFFSET (R24). -/
  errOffset : Word
deriving DecidableEq, Repr

/-- The working state of R32, which the host cannot read. -/
structure Working where
  phase   : Phase
  opl     : Op
  e       : Byte
  m       : Word
  w       : Word
  h       : Word
  n       : Word
  /-- PX and ONF: the pixel source and predicate bound at the start of a PACK. -/
  px      : PixelSource
  pc      : Nat
  y       : Nat
  g       : Nat
  checked : Bool
  acc     : List Byte
  err     : Option (ResultCode × Nat)
deriving DecidableEq, Repr

/-- One block instance with its host. -/
structure State where
  /-- The parameters of R8, which nothing changes. -/
  cfg      : Config
  reg      : Registers
  /-- IN (R29). -/
  inBuf    : Memory
  /-- OUT (R30). -/
  outBuf   : Memory
  work     : Working
  /-- FAULT (R33): the hazards committed, oldest first; nothing clears it. -/
  faults   : List Hazard
  /-- The pixel source and predicate the host has bound (R31, R35). -/
  source   : PixelSource
  /-- The host's pending moves, first one first (log 9). -/
  events   : List Event
  /-- Who moves next while both can (log 9). -/
  sched    : List Agent
  /-- What the host's reads answered, newest first (log 27). -/
  observed : List Observation
  /-- The next free value of this instance's stream (log 4, log 20). -/
  draws    : Draw
  /-- A hazard happened during the running command: its result is unspecified (R142, log 6). -/
  spoiled  : Bool
deriving DecidableEq, Repr

/-- Why the machine stops with a fault. The block itself has no trap (60_exceptions.md R129); its errors
are completions. -/
inductive Fault where
  /-- A host access to a byte of a buffer at or above its capacity (43_host_interface.md R110, R111, U6:
  "There is no byte there"; log 17). Raised by WRB, RDB and COPY. Safe. -/
  | noSuchByte (buf : Buf) (o : Nat)
deriving DecidableEq, Repr

/-- Why the machine refuses a move. -/
inductive Refusal where
  /-- An instruction that has no meaning in the model. Raised only by a dispatch arm. Safe. -/
  | notModelled (mnemonic : String)
  /-- A register access at an index above 8 (10_state.md R25, U4: "No such register exists"; log 16).
  Raised by WR and RD. Safe. -/
  | noSuchRegister (index : Nat)
  /-- An access of a width that no space has (20_memory.md R39, U5; log 16). Raised by `Event.otherWidth`.
  Safe. -/
  | noSuchWidth (bits : Nat)
deriving DecidableEq, Repr

/-- The registers after a reset whose draw is `d` (R34). -/
def Registers.afterReset (d : Draw) : Registers :=
  { result := .none, escape := Config.escReset d, minRun := 4, width := 0, height := 0, inLen := 0,
    outLen := 0, errOffset := 0 }

/-- The working state after reset (R36). R36 gives PHASE, ACC and ERR; it says that the others "hold no
value", and DESIGN CHOICE (log 3) gives them these. -/
def Working.afterReset : Working :=
  { phase := .idle, opl := .pack, e := 0, m := 0, w := 0, h := 0, n := 0,
    px := { rows := [], fill := 0, onSamples := [] }, pc := 0, y := 0, g := 0, checked := false,
    acc := [], err := none }

/-- The machine right after its first reset, with the parameters `c` (R34 to R36). Its free values come from
the stream `k`: DESIGN CHOICE, one stream for each instance (log 20). -/
def State.resetWith (k : Nat) (c : Config) : State :=
  { cfg := c, reg := Registers.afterReset { stream := k, num := 0 },
    inBuf := { cells := [], epoch := { stream := k, num := 0 } },
    outBuf := { cells := [], epoch := { stream := k, num := 1 } }, work := Working.afterReset, faults := [],
    source := { rows := [], fill := 0, onSamples := [] }, events := [], sched := [], observed := [],
    draws := { stream := k, num := 2 }, spoiled := false }

/-- The machine right after reset. -/
def State.reset : State := State.resetWith 0 Config.standard

end Sys2Proof.Machine
end

