-- ==== Sys2Proof/Machine/Flags.lean ====
section
/-!
DEFINITION. The STATUS register and its two flags (10_state.md R17, R27), and the numbers of the result codes
(60_exceptions.md R121). The block has no condition codes (R27).
-/
namespace Sys2Proof.Machine

/-- The number of a result code, as STATUS[7:4] holds it (R121). -/
def ResultCode.code : ResultCode → BitVec 4
  | .none => 0
  | .ok => 1
  | .invalidDimensions => 2
  | .invalidParameter => 3
  | .truncatedStream => 4
  | .malformedToken => 5
  | .capacityExceeded => 6
  | .illegalCommand => 7

/-- The result code with a given number. -/
def ResultCode.ofNumber : Fin 8 → ResultCode
  | 0 => .none
  | 1 => .ok
  | 2 => .invalidDimensions
  | 3 => .invalidParameter
  | 4 => .truncatedStream
  | 5 => .malformedToken
  | 6 => .capacityExceeded
  | 7 => .illegalCommand

/-- STATUS.BUSY (R17), which PHASE mirrors (R32). -/
def Phase.busyBit : Phase → BitVec 1
  | .idle => 0
  | .busy => 1

/-- The 32 bits of STATUS: RESULT in bits 7:4, BUSY in bit 0, the reserved bits 0 (R17, R25). -/
def statusWord (result : ResultCode) (phase : Phase) : Word :=
  (0 : BitVec 24) ++ result.code ++ (0 : BitVec 3) ++ phase.busyBit

/-- What a read of STATUS answers (43_host_interface.md R109). -/
def State.status (s : State) : Word := statusWord s.reg.result s.work.phase

end Sys2Proof.Machine
end

