-- ==== Sys2Proof/Machine/Ops.lean ====
section
/-!
DEFINITION. The shared operations: buffers, start and completion of a command, raising an error (the
block's form of taking an exception), appending output, hazards and reset.
-/
namespace Sys2Proof.Machine

/-! ### Buffers (10_state.md R28 to R30, 20_memory.md R39, R40) -/

/-- The byte listed at an offset. -/
def cellsLookup : List Host.Cell → Nat → Option Byte
  | [], _ => none
  | (k, v) :: rest, a => if k = a then some v else cellsLookup rest a

/-- The cells with the byte at one offset replaced or put in its place. -/
def cellsInsert : List Host.Cell → Nat → Byte → List Host.Cell
  | [], a, b => [(a, b)]
  | (k, v) :: rest, a, b =>
    if a < k then (a, b) :: (k, v) :: rest
    else if a = k then (a, b) :: rest
    else (k, v) :: cellsInsert rest a b

/-- The cells that hold `bs` from offset `o` on. -/
def cellsFrom (o : Nat) : List Byte → List Host.Cell
  | [] => []
  | b :: bs => (o, b) :: cellsFrom (o + 1) bs

/-- `MemRead(B, a, 1)` (00_scope.md R11). A byte that nothing has written is an unspecified value, the
same one at every read until the contents become unspecified again (R30, R35, log 2). -/
def Memory.read (m : Memory) (a : Nat) : Byte :=
  match cellsLookup m.cells a with
  | some b => b
  | none => Config.freeByte m.epoch a

/-- `MemWrite(B, a, 1, b)` (R11). -/
def Memory.write (m : Memory) (a : Nat) (b : Byte) : Memory :=
  { m with cells := cellsInsert m.cells a b }

/-- A buffer every byte of which is an unspecified value, on the occasion `epoch` (R30, R35). -/
def Memory.unspecified (epoch : Draw) : Memory := { cells := [], epoch := epoch }

/-- A buffer that holds `bs` from offset 0 on and unspecified values beyond (R30). -/
def Memory.ofBytes (bs : List Byte) (epoch : Draw) : Memory :=
  { cells := cellsFrom 0 bs, epoch := epoch }

/-- `B[start .. start + len − 1]`, in order. -/
def Memory.bytes (m : Memory) (start len : Nat) : List Byte :=
  (List.range len).map fun k => m.read (start + k)

/-- The canonical form: offsets strictly rising. A byte that is not listed has no value of its own, so no
listed entry can equal what an unlisted one reads as by definition. -/
abbrev Memory.wf (m : Memory) : Prop := m.cells.Pairwise fun p q => p.1 < q.1

/-- Every listed offset lies in the buffer (R28). -/
abbrev Memory.below (m : Memory) (cap : Nat) : Prop := ∀ p ∈ m.cells, p.1 < cap

/-- The capacity of a buffer (R8). -/
def State.cap (s : State) : Buf → Nat
  | .inBuf => s.cfg.inCap.val
  | .outBuf => s.cfg.outCap.val

/-- A buffer of the state. -/
def State.buf (s : State) : Buf → Memory
  | .inBuf => s.inBuf
  | .outBuf => s.outBuf

/-- The state with a byte of a buffer written (R110). -/
def State.store (s : State) (b : Buf) (o : Nat) (v : Byte) : State :=
  match b with
  | .inBuf => { s with inBuf := s.inBuf.write o v }
  | .outBuf => { s with outBuf := s.outBuf.write o v }

/-! ### Completion and errors (43_host_interface.md R117, 60_exceptions.md R129) -/

/-- The registers a completion leaves, its draw being `d`: RESULT, and OUT_LEN and ERR_OFFSET as R117
gives them for OK and for an error. After a hazard all three are unspecified (R142, log 6). -/
def completionRegisters (spoiled : Bool) (code : ResultCode) (off outLen : Nat) (d : Draw) (r : Registers) :
    Registers :=
  if spoiled then
    { r with
      result := ResultCode.ofNumber (Config.freeCode d)
      outLen := Config.freeWord d
      errOffset := Config.freeWord (d.plus 1) }
  else if code = .ok then
    { r with result := .ok, outLen := BitVec.ofNat 32 outLen, errOffset := 0 }
  else
    { r with result := code, outLen := 0, errOffset := BitVec.ofNat 32 off }

/-- OUT after a completion: the output from offset 0 on and unspecified values beyond, or unspecified values
throughout after an error (R30, R117) or a hazard (R142). -/
def completionOut (spoiled : Bool) (code : ResultCode) (acc : List Byte) (d : Draw) : Memory :=
  if spoiled = false ∧ code = .ok then Memory.ofBytes acc d else Memory.unspecified d

/-- `Complete(code, off)` (R117): every write in one step. -/
def State.complete (code : ResultCode) (off : Nat) (s : State) : State :=
  { s with
    reg := completionRegisters s.spoiled code off s.work.acc.length s.draws s.reg
    outBuf := completionOut s.spoiled code s.work.acc s.draws
    work := { s.work with phase := .idle, acc := [] }
    draws := s.draws.plus 2
    spoiled := false }

/-- `raise E(off)` (R11, R129): the block's form of taking an exception. It records the error in ERR (R32)
and completes with it; no cursor, output or command word is saved, no mode changes (one mode, R133) and
control goes nowhere: the block is idle. There is no return from an error (R130): `State.start` and the next
completion overwrite the result registers. -/
def State.raise (code : ResultCode) (off : Nat) (s : State) : State :=
  State.complete code off { s with work := { s.work with err := some (code, off) } }

/-- The working state right after a start (R112): the parameters latched, the cursors at 0. -/
def Working.started (op : Op) (r : Registers) (src : PixelSource) (k : Working) : Working :=
  { phase := .busy, opl := op, e := r.escape, m := r.minRun, w := r.width, h := r.height, n := r.inLen,
    px := if op = .pack then src else k.px, pc := 0, y := 0, g := 0, checked := false, acc := [],
    err := none }

/-- `Start(w)` of a legal word (R112). -/
def State.start (op : Op) (s : State) : State :=
  { s with
    reg := { s.reg with result := .none }
    work := Working.started op s.reg s.source s.work
    spoiled := false }

/-- Appends output to ACC, the cursor of ENCODE or DECODE moving on by `k` bytes of input. When ACC would
become longer than OUT_CAP, CapacityExceeded is raised before anything is appended (41_encode.md R88,
42_decode.md R104). -/
def State.emit (out : List Byte) (k : Nat) (s : State) : State :=
  if s.cfg.outCap.val < s.work.acc.length + out.length then s.raise .capacityExceeded 0
  else { s with work := { s.work with acc := s.work.acc ++ out, pc := s.work.pc + k } }

/-- The PACK cursor after one byte (40_pack.md R72): `g <- g + 1`, and at the end of the row the next row. -/
def Working.nextGroup (k : Working) : Working :=
  if k.g + 1 = k.w.toNat / 8 then { k with g := 0, y := k.y + 1 } else { k with g := k.g + 1 }

/-- Appends a packed byte to ACC and moves the PACK cursor on (R72). Its room was checked at the start
(R71). -/
def State.emitPacked (b : Byte) (s : State) : State :=
  { s with work := { s.work.nextGroup with acc := s.work.acc ++ [b] } }

/-! ### Hazards (70_reset_and_hazards.md R142, 10_state.md R33) -/

/-- A host write while BUSY: FAULT records it, the registers and every byte of OUT take unspecified values,
and with them the running command's result (R108, R119, R142, log 6). STATUS is one of those registers, so
whether the command still runs is unspecified too; if it does, its completion is spoiled as well. -/
def State.hazard (h : Hazard) (s : State) : State :=
  { s with
    faults := s.faults ++ [h]
    reg :=
      { result := ResultCode.ofNumber (Config.freeCode s.draws)
        escape := (Config.freeWord s.draws).setWidth 8
        minRun := Config.freeWord (s.draws.plus 1)
        width := Config.freeWord (s.draws.plus 2)
        height := Config.freeWord (s.draws.plus 3)
        inLen := Config.freeWord (s.draws.plus 4)
        outLen := Config.freeWord (s.draws.plus 5)
        errOffset := Config.freeWord (s.draws.plus 6) }
    outBuf := Memory.unspecified s.draws
    work := { s.work with phase := if Config.freeBool s.draws then .busy else .idle }
    draws := s.draws.plus 7
    spoiled := Config.freeBool s.draws }

/-- A buffer write while BUSY: the hazard, and the written byte, if there is one, takes an unspecified value
(R110, R142). -/
def State.bufferHazard (b : Buf) (o : Nat) (s : State) : State :=
  let t := s.hazard (.bufferWrite b)
  if o < s.cap b then { t.store b o (Config.freeByte t.draws o) with draws := t.draws.plus 1 } else t

/-- A new pixel source binding while BUSY: the hazard, and the binding takes an unspecified value (R142,
U7). -/
def State.bindingHazard (s : State) : State :=
  let t := s.hazard .pixelBinding
  { t with source := Config.freePixels t.draws, draws := t.draws.plus 1 }

/-! ### Reset (R139, R140, 10_state.md R34 to R36) -/

/-- Reset, at any time: registers and working state to their values after reset, IN and OUT unspecified.
The parameters, the pixel source (R35) and FAULT (R33) keep what they hold; the host's pending moves and what
it has read are the host's. -/
def State.resetNow (s : State) : State :=
  { s with
    reg := Registers.afterReset s.draws
    inBuf := Memory.unspecified s.draws
    outBuf := Memory.unspecified (s.draws.plus 1)
    work := Working.afterReset
    draws := s.draws.plus 2
    spoiled := false }

end Sys2Proof.Machine
end

