-- ==== Sys2Proof/Machine/Commands.lean ====
section
/-!
DEFINITION. The meanings of the five command-word rows: a host write of the word to CMD (43_host_interface.md
R112 to R115, 60_exceptions.md R127).
-/
namespace Sys2Proof.Machine

/-- A host write to CMD: a hazard while BUSY (R142, R136), otherwise the word's own effect (R112). -/
def State.commandWrite (body : State → State) (s : State) : State :=
  if s.work.phase = .busy then s.hazard (.registerWrite .cmd) else body s

/-- An illegal word starts nothing: it completes at once, so BUSY is never seen as 1 (R62, R112, R127). -/
def State.illegalCommand (s : State) : State :=
  State.complete .illegalCommand 0 { s with spoiled := false }

/-- PACK, word 0x00000001 (R113): the start; the internal steps follow (Machine/Block.lean). -/
def execPack (s : State) : Host.Outcome State Fault Refusal :=
  .next (s.commandWrite (State.start .pack))

/-- ENCODE, word 0x00000002 (R114). -/
def execEncode (s : State) : Host.Outcome State Fault Refusal :=
  .next (s.commandWrite (State.start .encode))

/-- DECODE, word 0x00000003 (R115). -/
def execDecode (s : State) : Host.Outcome State Fault Refusal :=
  .next (s.commandWrite (State.start .decode))

/-- A word with OP = 00 (R127), whatever its reserved bits. -/
def execIllegalCmdOp0 (_reserved : BitVec 30) (s : State) : Host.Outcome State Fault Refusal :=
  .next (s.commandWrite State.illegalCommand)

/-- A word with reserved bits set (R127), whatever they and OP are. -/
def execIllegalCmdRsvd (_reserved : BitVec 30) (_op : BitVec 2) (s : State) :
    Host.Outcome State Fault Refusal :=
  .next (s.commandWrite State.illegalCommand)

end Sys2Proof.Machine
end

