-- ==== Sys2Proof/Syntax.lean ====
section
/-!
DEFINITION. The instructions: one constructor for each row of spec/opcode_table.json, in its order, with the
operands of the row's fields (30_encoding.md R49 to R62).
-/
namespace Sys2Proof

/-- The thirteen rows of spec/opcode_table.json. -/
inductive Instr where
  /-- Command word 0x00000001 (R61, R113). -/
  | pack
  /-- Command word 0x00000002 (R61, R114). -/
  | encode
  /-- Command word 0x00000003 (R61, R115). -/
  | decode
  /-- A command word with OP = 00, its other bits any (R62, R127). -/
  | illegalCmdOp0 (reserved : BitVec 30)
  /-- A command word with bits 31:2 (`reserved`) not all 0 (R62, R127); `op` is bits 1:0. -/
  | illegalCmdRsvd (reserved : BitVec 30) (op : BitVec 2)
  /-- The packed byte `abcdefgh` (R50, R69): `a` is bit 7, the leftmost pixel. -/
  | pixel8 (a b c d e f g h : Bool)
  /-- The Literal token `b` (R53, R93). -/
  | lit (b : Byte)
  /-- The Run token `e, n, v` (R54, R94). -/
  | run (e n v : Byte)
  /-- The Escaped-literal token `e, 01, e` (R55, R95). -/
  | esc (e : Byte)
  /-- The pattern `e, 01, v` with `v ≠ e` (R57, R96). -/
  | illegalEscValue (e v : Byte)
  /-- The pattern `e, 00` (R57, R97). -/
  | illegalCount0 (e : Byte)
  /-- The pattern `e` at the end of the stream (R57, R98). -/
  | truncCount (e : Byte)
  /-- The pattern `e, c` at the end of the stream, `c ≠ 00` (R57, R98). -/
  | truncValue (e c : Byte)
deriving DecidableEq, Repr

end Sys2Proof
end

