-- ==== Sys2Proof/WellFormed.lean ====
section
/-!
DEFINITION. The conditions of the encodings: those on an instruction alone (`Instr.wf`) and those that
name the escape byte in force (`Instr.fits`), because "the mode bit that changes decoding is the parameter
`e` itself" (30_encoding.md R52).
-/
namespace Sys2Proof

/-- The conditions of an instruction's row on its own operands. DESIGN CHOICE (log 12): the two illegal
command rows overlap (OP = 00 with reserved bits set); such a word is `illegalCmdOp0`. -/
def Instr.wf : Instr → Bool
  | .pack => true
  | .encode => true
  | .decode => true
  | .illegalCmdOp0 _ => true
  | .illegalCmdRsvd reserved op => reserved != 0 && op != 0
  | .pixel8 _ _ _ _ _ _ _ _ => true
  | .lit _ => true
  | .run _ n _ => decide (2 ≤ n.toNat)
  | .esc _ => true
  | .illegalEscValue e v => v != e
  | .illegalCount0 _ => true
  | .truncCount _ => true
  | .truncValue _ c => c != 0

/-- The conditions of an instruction's row on the escape byte `e0` in force: a Literal is not it, and every
other token begins with it (R52 to R57). A command word and a packed byte do not depend on it. -/
def Instr.fits (e0 : Byte) : Instr → Bool
  | .pack => true
  | .encode => true
  | .decode => true
  | .illegalCmdOp0 _ => true
  | .illegalCmdRsvd _ _ => true
  | .pixel8 _ _ _ _ _ _ _ _ => true
  | .lit b => b != e0
  | .run e _ _ => e == e0
  | .esc e => e == e0
  | .illegalEscValue e _ => e == e0
  | .illegalCount0 e => e == e0
  | .truncCount e => e == e0
  | .truncValue e _ => e == e0

/-- The three tokens of R51: the patterns that a decoder accepts. -/
def Instr.isToken : Instr → Bool
  | .lit _ => true
  | .run _ _ _ => true
  | .esc _ => true
  | .pack => false
  | .encode => false
  | .decode => false
  | .illegalCmdOp0 _ => false
  | .illegalCmdRsvd _ _ => false
  | .pixel8 _ _ _ _ _ _ _ _ => false
  | .illegalEscValue _ _ => false
  | .illegalCount0 _ => false
  | .truncCount _ => false
  | .truncValue _ _ => false

/-- The two patterns that are illegal because the stream ends (R98): nothing follows them. -/
def Instr.endsStream : Instr → Bool
  | .truncCount _ => true
  | .truncValue _ _ => true
  | .pack => false
  | .encode => false
  | .decode => false
  | .illegalCmdOp0 _ => false
  | .illegalCmdRsvd _ _ => false
  | .pixel8 _ _ _ _ _ _ _ _ => false
  | .lit _ => false
  | .run _ _ _ => false
  | .esc _ => false
  | .illegalEscValue _ _ => false
  | .illegalCount0 _ => false

end Sys2Proof
end

