-- ==== Sys2Proof/Decode.lean ====
section
/-!
DEFINITION. The decoders of the block's three formats (30_encoding.md R49), total on any word and any bytes,
and the encoder written from the same tables. The escape byte in force is an argument (R52, R56).
-/
namespace Sys2Proof

/-- Why a decoder answers no instruction. -/
inductive DecodeError where
  /-- There is no token at the end of a stream: "it ends where its byte sequence ends" (R51). -/
  | endOfStream
  /-- No format has this many bits (R49). -/
  | noSuchLength (nbits : Nat)
deriving DecidableEq, Repr

/-- One encoded item, by its format (R49). -/
inductive Code where
  /-- A command word, written to register CMD (R60). -/
  | command (w : Word)
  /-- Bytes of a token stream, in stream order (R51). -/
  | stream (bs : List Byte)
  /-- A packed pixel byte (R50). -/
  | packed (b : Byte)
deriving DecidableEq, Repr

/-- The command word (R60, R61, R62): every 32-bit word is one of the five command rows. -/
def decodeCommand (w : Word) : Instr :=
  let op := w.extractLsb' 0 2
  let reserved := w.extractLsb' 2 30
  if op = 0 then .illegalCmdOp0 reserved
  else if reserved ≠ 0 then .illegalCmdRsvd reserved op
  else if op = 1 then .pack
  else if op = 2 then .encode
  else .decode

/-- One token, read from the first bytes of what remains of the stream under the escape byte `e`, and the
bytes after it. The bytes are looked at in the order of R99: count missing, count 00, value missing, count
01 with another value. -/
def decodeToken (e : Byte) : List Byte → Except DecodeError (Instr × List Byte)
  | [] => .error .endOfStream
  | b :: rest =>
    if b ≠ e then .ok (.lit b, rest)
    else match rest with
      | [] => .ok (.truncCount e, [])
      | c :: rest =>
        if c = 0 then .ok (.illegalCount0 e, rest)
        else match rest with
          | [] => .ok (.truncValue e c, [])
          | v :: rest =>
            if c = 1 then
              if v = e then .ok (.esc e, rest) else .ok (.illegalEscValue e v, rest)
            else .ok (.run e c v, rest)

/-- The packed byte (R50): bit 7 is `a`, the leftmost pixel. -/
def decodePacked (b : Byte) : Instr :=
  .pixel8 (b.getLsbD 7) (b.getLsbD 6) (b.getLsbD 5) (b.getLsbD 4)
    (b.getLsbD 3) (b.getLsbD 2) (b.getLsbD 1) (b.getLsbD 0)

/-- The decoder of all three formats: the instruction and what follows it. -/
def decode (e : Byte) : Code → Except DecodeError (Instr × List Byte)
  | .command w => .ok (decodeCommand w, [])
  | .stream bs => decodeToken e bs
  | .packed b => .ok (decodePacked b, [])

/-- A whole token stream, "serialized contiguously with no separators" (R51): its instructions in order.
The first argument bounds the number of tokens; a stream has at most as many as bytes. -/
def decodeStream (e : Byte) : Nat → List Byte → Except DecodeError (List Instr)
  | _, [] => .ok []
  | 0, _ :: _ => .error .endOfStream
  | k + 1, b :: bs =>
    match decodeToken e (b :: bs) with
    | .error err => .error err
    | .ok (i, rest) => (decodeStream e k rest).map (i :: ·)

/-- The byte whose bit `7 − j` is pixel `j` of its group: `Σ b_j · 2^(7−j)` (R50, R69). -/
def packBits (a b c d e f g h : Bool) : Byte :=
  BitVec.ofNat 8 (a.toNat * 128 + b.toNat * 64 + c.toNat * 32 + d.toNat * 16
    + e.toNat * 8 + f.toNat * 4 + g.toNat * 2 + h.toNat)

/-- The encoding of an instruction, from the tables of 30_encoding.md (R50, R53 to R55, R57, R60, R61). -/
def encode : Instr → Code
  | .pack => .command 0x00000001
  | .encode => .command 0x00000002
  | .decode => .command 0x00000003
  | .illegalCmdOp0 reserved => .command (reserved ++ (0 : BitVec 2))
  | .illegalCmdRsvd reserved op => .command (reserved ++ op)
  | .pixel8 a b c d e f g h => .packed (packBits a b c d e f g h)
  | .lit b => .stream [b]
  | .run e n v => .stream [e, n, v]
  | .esc e => .stream [e, 0x01, e]
  | .illegalEscValue e v => .stream [e, 0x01, v]
  | .illegalCount0 e => .stream [e, 0x00]
  | .truncCount e => .stream [e]
  | .truncValue e c => .stream [e, c]

/-- The bytes of an item of a token stream (none for another format). -/
def Code.streamBytes : Code → List Byte
  | .command _ => []
  | .stream bs => bs
  | .packed _ => []

/-- The bytes a token occupies in a stream. -/
def Instr.bytes (i : Instr) : List Byte := (Sys2Proof.encode i).streamBytes

/-- The bytes of a table word of `8 * k` bits in stream order. The table writes a token's pattern in stream
order, so its first byte has the highest bits (log 13). -/
def tableBytes : Nat → Nat → List Byte
  | 0, _ => []
  | k + 1, w => BitVec.ofNat 8 (w >>> (8 * k)) :: tableBytes k w

/-- The escape byte under which a table word of the token formats is read (log 13): the rows of 2 and 3
bytes all begin with it; a row of 1 byte is read as a Literal, so it is another byte. -/
def tableEscape : List Byte → Byte
  | [] => 0
  | [b] => ~~~b
  | b :: _ :: _ => b

/-- What the decoder reads from an item of `nbits` bits `w`, numbered as spec/opcode_table.json numbers
them: 32 bits are a command word, 8, 16 and 24 bits a token at the end of its stream. -/
def decodeTable (nbits w : Nat) : Except DecodeError Instr :=
  if nbits = 32 then .ok (decodeCommand (BitVec.ofNat 32 w))
  else if nbits = 8 ∨ nbits = 16 ∨ nbits = 24 then
    let bs := tableBytes (nbits / 8) w
    match decodeToken (tableEscape bs) bs with
    | .ok (i, _) => .ok i
    | .error err => .error err
  else .error (.noSuchLength nbits)

/-- `decodeTable` for the host's opcode checklist. -/
def decodeTableWord (nbits w : Nat) : Option Instr :=
  match decodeTable nbits w with
  | .ok i => some i
  | .error _ => none

/-- The mnemonic of a row, letter for letter. -/
def Instr.mnemonic : Instr → String
  | .pack => "PACK"
  | .encode => "ENCODE"
  | .decode => "DECODE"
  | .illegalCmdOp0 _ => "ILLEGAL_CMD_OP0"
  | .illegalCmdRsvd _ _ => "ILLEGAL_CMD_RSVD"
  | .pixel8 _ _ _ _ _ _ _ _ => "PIXEL8"
  | .lit _ => "LIT"
  | .run _ _ _ => "RUN"
  | .esc _ => "ESC"
  | .illegalEscValue _ _ => "ILLEGAL_ESC_VALUE"
  | .illegalCount0 _ => "ILLEGAL_COUNT0"
  | .truncCount _ => "TRUNC_COUNT"
  | .truncValue _ _ => "TRUNC_VALUE"

end Sys2Proof
end

