-- ==== Sys2Proof/Machine/Pixels.lean ====
section
/-!
DEFINITION. The meaning of the packed byte: the internal PACK step that makes it (40_pack.md R69, R72).
-/
namespace Sys2Proof.Machine

/-- PIXEL8: the byte whose bit 7 is `a`, appended to ACC, and the PACK cursor moved on (R72, log 15). -/
def execPixel8 (a b c d e f g h : Bool) (s : State) : Host.Outcome State Fault Refusal :=
  .next (s.emitPacked (packBits a b c d e f g h))

end Sys2Proof.Machine
end

