-- ==== Sys2Proof/Machine/Tokens.lean ====
section
/-!
DEFINITION. The meanings of the tokens and of the illegal token patterns of a DECODE stream (42_decode.md
R93 to R99, R104). The length check of R104 is in `State.emit`, after a token's own checks.
-/
namespace Sys2Proof.Machine

/-- LIT `b` (R93): one output byte, 1 byte of input. -/
def execLit (b : Byte) (s : State) : Host.Outcome State Fault Refusal :=
  .next (s.emit [b] 1)

/-- RUN `e, n, v` (R94): `repeat(v, n)`, 3 bytes of input. The count is the repeat count itself (R56). -/
def execRun (_e n v : Byte) (s : State) : Host.Outcome State Fault Refusal :=
  .next (s.emit (List.replicate n.toNat v) 3)

/-- ESC `e, 01, e` (R95): the escape byte, 3 bytes of input. -/
def execEsc (e : Byte) (s : State) : Host.Outcome State Fault Refusal :=
  .next (s.emit [e] 3)

/-- `e, 01, v` with `v ≠ e` (R96): MalformedToken at the value byte. -/
def execIllegalEscValue (_e _v : Byte) (s : State) : Host.Outcome State Fault Refusal :=
  .next (s.raise .malformedToken (s.work.pc + 2))

/-- `e, 00` (R97): MalformedToken at the count byte, whatever follows. -/
def execIllegalCount0 (_e : Byte) (s : State) : Host.Outcome State Fault Refusal :=
  .next (s.raise .malformedToken (s.work.pc + 1))

/-- `e` at the end of the stream (R98): TruncatedStream at the missing count byte. -/
def execTruncCount (_e : Byte) (s : State) : Host.Outcome State Fault Refusal :=
  .next (s.raise .truncatedStream (s.work.pc + 1))

/-- `e, c` at the end of the stream (R98): TruncatedStream at the missing value byte. -/
def execTruncValue (_e _c : Byte) (s : State) : Host.Outcome State Fault Refusal :=
  .next (s.raise .truncatedStream (s.work.pc + 2))

end Sys2Proof.Machine
end

