-- ==== Sys2Proof/Machine/Dispatch.lean ====
section
/-!
DEFINITION. The meaning of an instruction: one arm for each constructor of `Instr`.
-/
namespace Sys2Proof.Machine

/-- What an instruction does. -/
def exec (i : Instr) (s : State) : Host.Outcome State Fault Refusal :=
  match i with
  | .pack => Sys2Proof.Machine.execPack s
  | .encode => Sys2Proof.Machine.execEncode s
  | .decode => Sys2Proof.Machine.execDecode s
  | .illegalCmdOp0 reserved => Sys2Proof.Machine.execIllegalCmdOp0 reserved s
  | .illegalCmdRsvd reserved op => Sys2Proof.Machine.execIllegalCmdRsvd reserved op s
  | .pixel8 a b c d e f g h => Sys2Proof.Machine.execPixel8 a b c d e f g h s
  | .lit b => Sys2Proof.Machine.execLit b s
  | .run e n v => Sys2Proof.Machine.execRun e n v s
  | .esc e => Sys2Proof.Machine.execEsc e s
  | .illegalEscValue e v => Sys2Proof.Machine.execIllegalEscValue e v s
  | .illegalCount0 e => Sys2Proof.Machine.execIllegalCount0 e s
  | .truncCount e => Sys2Proof.Machine.execTruncCount e s
  | .truncValue e c => Sys2Proof.Machine.execTruncValue e c s

end Sys2Proof.Machine
end

