-- ==== Sys2Proof/Machine/Operands.lean ====
section
/-!
DEFINITION. Operand forms: a register by its index and its reads and writes (10_state.md R15 to R25,
43_host_interface.md R108, R109), a byte of a buffer (R111), the bytes of IN a token occupies (42_decode.md
R102, 41_encode.md R89), and the pixels of a group (40_pack.md R69).
-/
namespace Sys2Proof.PixelSource

/-- `Pixel(x, y)`: the sample in column x, 0 = leftmost, and row y, 0 = top (R31). -/
def pixel (src : PixelSource) (x y : Nat) : Sample :=
  ((src.rows[y]?).bind fun row => row[x]?).getD src.fill

/-- The threshold predicate `on` (R31, 40_pack.md R70). -/
def on (src : PixelSource) (v : Sample) : Bool := src.onSamples.contains v

/-- `on(Pixel(x, y))`. -/
def isOn (src : PixelSource) (x y : Nat) : Bool := src.on (src.pixel x y)

/-- The eight pixels of group g of row y as the packed-byte instruction: `a` is column 8g (R50, R69). -/
def group (src : PixelSource) (y g : Nat) : Instr :=
  .pixel8 (src.isOn (8 * g) y) (src.isOn (8 * g + 1) y) (src.isOn (8 * g + 2) y)
    (src.isOn (8 * g + 3) y) (src.isOn (8 * g + 4) y) (src.isOn (8 * g + 5) y)
    (src.isOn (8 * g + 6) y) (src.isOn (8 * g + 7) y)

end Sys2Proof.PixelSource

namespace Sys2Proof.Machine

/-- The register at an index (R15); none above 8 (R25). -/
def RegName.ofIndex : Nat → Option RegName
  | 0 => some .cmd
  | 1 => some .status
  | 2 => some .escape
  | 3 => some .minRun
  | 4 => some .width
  | 5 => some .height
  | 6 => some .inLen
  | 7 => some .outLen
  | 8 => some .errOffset
  | _ => none

/-- An unspecified 32-bit answer (R143). -/
def State.drawWord (s : State) : Word × State :=
  (Config.freeWord s.draws, { s with draws := s.draws.plus 1 })

/-- `RD(r)` (R109): the value and the state after it. Only the supply of free values moves, and only for
OUT_LEN and ERR_OFFSET while BUSY (R143). -/
def State.readReg (r : RegName) (s : State) : Word × State :=
  match r with
  | .cmd => (0, s)
  | .status => (s.status, s)
  | .escape => (zext32 s.reg.escape, s)
  | .minRun => (s.reg.minRun, s)
  | .width => (s.reg.width, s)
  | .height => (s.reg.height, s)
  | .inLen => (s.reg.inLen, s)
  | .outLen => if s.work.phase = .busy then s.drawWord else (s.reg.outLen, s)
  | .errOffset => if s.work.phase = .busy then s.drawWord else (s.reg.errOffset, s)

/-- The registers after `WR(r, v)` while idle, r not CMD (R108): a read-only register ignores the write
(R25), and ESCAPE takes bits 7:0. CMD is no storage (R16); its write is an instruction. -/
def Registers.set (r : RegName) (v : Word) (k : Registers) : Registers :=
  match r with
  | .cmd => k
  | .status => k
  | .escape => { k with escape := v.setWidth 8 }
  | .minRun => { k with minRun := v }
  | .width => { k with width := v }
  | .height => { k with height := v }
  | .inLen => { k with inLen := v }
  | .outLen => k
  | .errOffset => k

/-- `RDB B[o]` (R111), the offset being in range: while BUSY a byte of OUT is a draw (R143). -/
def State.readByte (b : Buf) (o : Nat) (s : State) : Byte × State :=
  if b = .outBuf ∧ s.work.phase = .busy then
    (Config.freeByte s.draws o, { s with draws := s.draws.plus 1 })
  else ((s.buf b).read o, s)

/-- The next `k` bytes of the input at the cursor, fewer at its end: `IN[pc .. min(pc + k, N) − 1]`. -/
def State.window (k : Nat) (s : State) : List Byte :=
  s.inBuf.bytes s.work.pc (min k (s.work.n.toNat - s.work.pc))

/-- The token at the DECODE cursor, under the latched escape byte: it "reads s[pc] and at most s[pc+1] and
s[pc+2]" (R102). An error means that pc is at the end of the stream. -/
def State.fetchToken (s : State) : Except DecodeError (Instr × List Byte) :=
  decodeToken s.work.e (s.window 3)

end Sys2Proof.Machine
end

