-- ==== Sys2Proof/Machine/Codec.lean ====
section
/-!
DEFINITION. The three operations as functions of their explicit inputs (00_scope.md R6): Pack (40_pack.md
R65), Encode (41_encode.md R75) and Decode (42_decode.md R92), on unbounded lists, and the choices of one
ENCODE iteration (R77 to R81), which the machine uses too.
-/
namespace Sys2Proof.Machine

/-- An error and its offset (R11); the offset is 0 for an error that has none. -/
abbrev CodecError := ResultCode × Nat

/-- Output byte of row y, group g: `Σ b_j · 2^(7−j)` with `b_j = on(Pixel(8g + j, y))` (R65, R69). -/
def Codec.packedByte (src : PixelSource) (y g : Nat) : Byte :=
  BitVec.ofNat 8 ((List.range 8).map fun j => if src.isOn (8 * g + j) y then 2 ^ (7 - j) else 0).sum

/-- `Pack(W, H, Pixel, on)` (R65): rows top to bottom, groups left to right. -/
def Codec.pack (w h : Nat) (src : PixelSource) : Except CodecError (List Byte) :=
  if w % 8 ≠ 0 then .error (.invalidDimensions, 0)
  else .ok ((List.range h).flatMap fun y => (List.range (w / 8)).map fun g => Codec.packedByte src y g)

/-- The capped run length L at the start of the remaining data (R77). -/
def cappedRun : List Byte → Nat
  | [] => 0
  | v :: rest => min 255 (1 + (rest.takeWhile (· == v)).length)

/-- Steps 2, 3 and 4 in that order (R78 to R81): the token for byte `v` with capped run length `l`. -/
def chooseToken (e : Byte) (m : Word) (v : Byte) (l : Nat) : Instr :=
  if m.toNat ≤ l then .run e (BitVec.ofNat 8 l) v
  else if v = e then .esc e
  else .lit v

/-- How far the ENCODE cursor moves: past the run, or by 1 (R78 to R80). -/
def tokenAdvance (m : Word) (l : Nat) : Nat := if m.toNat ≤ l then l else 1

/-- The loop of R75 on the remaining data. The first argument bounds the iterations; each takes at least
one byte. -/
def Codec.encodeLoop (e : Byte) (m : Word) : Nat → List Byte → List Byte
  | _, [] => []
  | 0, _ :: _ => []
  | k + 1, v :: rest =>
    let l := cappedRun (v :: rest)
    (chooseToken e m v l).bytes ++ Codec.encodeLoop e m k ((v :: rest).drop (tokenAdvance m l))

/-- `Encode(data, e, m)` (R75); `m < 2` fails even for empty data (R76). -/
def Codec.encode (data : List Byte) (e : Byte) (m : Word) : Except CodecError (List Byte) :=
  if m.toNat < 2 then .error (.invalidParameter, 0)
  else .ok (Codec.encodeLoop e m data.length data)

/-- The loop of R92 on what remains of the stream, `pc` being its offset: the checks of one token are in the
order of R99. -/
def Codec.decodeFrom (e : Byte) (pc : Nat) : List Byte → Except CodecError (List Byte)
  | [] => .ok []
  | [b] => if b ≠ e then .ok [b] else .error (.truncatedStream, pc + 1)
  | [b, c] =>
    if b ≠ e then (Codec.decodeFrom e (pc + 1) [c]).map (b :: ·)
    else if c = 0 then .error (.malformedToken, pc + 1)
    else .error (.truncatedStream, pc + 2)
  | b :: c :: v :: rest =>
    if b ≠ e then (Codec.decodeFrom e (pc + 1) (c :: v :: rest)).map (b :: ·)
    else if c = 0 then .error (.malformedToken, pc + 1)
    else if c = 1 then
      if v ≠ e then .error (.malformedToken, pc + 2)
      else (Codec.decodeFrom e (pc + 3) rest).map (e :: ·)
    else (Codec.decodeFrom e (pc + 3) rest).map (List.replicate c.toNat v ++ ·)

/-- `Decode(s, e)` (R92). -/
def Codec.decode (s : List Byte) (e : Byte) : Except CodecError (List Byte) := Codec.decodeFrom e 0 s

end Sys2Proof.Machine
end

