-- ==== Sys2Proof/Machine/Block.lean ====
section
/-!
DEFINITION. The block's internal step (43_host_interface.md R116): the start checks, one iteration, or the
completion. An iteration that decodes a token or packs a byte runs that instruction.
-/
namespace Sys2Proof.Machine

/-- The next move of the machine: an instruction to run, a next state, or a stop. -/
inductive Move where
  | run (i : Instr) (s : State)
  | go (s : State)
  | fault (f : Fault)
  | refuse (r : Refusal)
deriving DecidableEq, Repr

/-- The start checks have passed (R116). -/
def State.pass (s : State) : State := { s with work := { s.work with checked := true } }

/-- The start checks (R113 to R115), in the order of 60_exceptions.md R128 items 2 and 3. The product of R71
is exact. -/
def State.startChecks (s : State) : State :=
  match s.work.opl with
  | .pack =>
    if s.work.w.toNat % 8 ≠ 0 then s.raise .invalidDimensions 0
    else if s.cfg.outCap.val < s.work.h.toNat * (s.work.w.toNat / 8) then s.raise .capacityExceeded 0
    else s.pass
  | .encode =>
    if s.work.m.toNat < 2 then s.raise .invalidParameter 0
    else if s.cfg.inCap.val < s.work.n.toNat then s.raise .capacityExceeded 0
    else s.pass
  | .decode =>
    if s.cfg.inCap.val < s.work.n.toNat then s.raise .capacityExceeded 0
    else s.pass

/-- One iteration of PACK, or its completion (40_pack.md R72). -/
def State.packMove (s : State) : Move :=
  if s.work.h.toNat ≤ s.work.y ∨ s.work.w.toNat / 8 = 0 then .go (s.complete .ok 0)
  else .run (s.work.px.group s.work.y s.work.g) s

/-- One iteration of ENCODE, or its completion (41_encode.md R89): the token of R77 to R81 for the at most
256 bytes read, its bytes appended to ACC after the check of R88. -/
def State.encodeMove (s : State) : Move :=
  match s.window 256 with
  | [] => .go (s.complete .ok 0)
  | v :: rest =>
    let l := cappedRun (v :: rest)
    .go (s.emit (chooseToken s.work.e s.work.m v l).bytes (tokenAdvance s.work.m l))

/-- One iteration of DECODE, or its completion when the cursor is at the end (42_decode.md R105). -/
def State.decodeMove (s : State) : Move :=
  match s.fetchToken with
  | .error _ => .go (s.complete .ok 0)
  | .ok (i, _) => .run i s

/-- `BlockStep()` (R116), the block being BUSY. -/
def State.blockMove (s : State) : Move :=
  if s.work.checked = false then .go s.startChecks
  else match s.work.opl with
    | .pack => s.packMove
    | .encode => s.encodeMove
    | .decode => s.decodeMove

end Sys2Proof.Machine
end

