-- ==== Sys2Proof/Machine/HostAccess.lean ====
section
/-!
DEFINITION. The host's moves (43_host_interface.md R108 to R112, 30_encoding.md R64): one bus transaction, a
binding of the pixel source, or reset.
-/
namespace Sys2Proof.Machine

/-- What a host read answered, put on record (log 27). -/
def State.observe (o : Observation) (s : State) : State := { s with observed := o :: s.observed }

/-- Moves that come before the host's other pending moves. -/
def State.push (evs : List Event) (s : State) : State := { s with events := evs ++ s.events }

/-- A register write other than to CMD (R108): a hazard while BUSY, otherwise the register's own rule. -/
def State.writeReg (r : RegName) (v : Word) (s : State) : State :=
  if s.work.phase = .busy then s.hazard (.registerWrite r) else { s with reg := s.reg.set r v }

/-- `WR` (R108). A write to CMD runs the instruction its word encodes (R112). -/
def State.wrMove (index : Nat) (v : Word) (s : State) : Move :=
  match RegName.ofIndex index with
  | none => .refuse (.noSuchRegister index)
  | some r => if r = .cmd then .run (decodeCommand v) s else .go (s.writeReg r v)

/-- `RD` (R109): the state after the read, its answer on record. -/
def State.readObserved (r : RegName) (s : State) : State :=
  (s.readReg r).2.observe (.reg r (s.readReg r).1)

/-- `RD` of an index (R109). -/
def State.rdMove (index : Nat) (s : State) : Move :=
  match RegName.ofIndex index with
  | none => .refuse (.noSuchRegister index)
  | some r => .go (s.readObserved r)

/-- `WRB` (R110): the hazard comes first, then the range. -/
def State.wrbMove (b : Buf) (o : Nat) (v : Byte) (s : State) : Move :=
  if s.work.phase = .busy then .go (s.bufferHazard b o)
  else if o < s.cap b then .go (s.store b o v)
  else .fault (.noSuchByte b o)

/-- `RDB` (R111), the offset being in range: the state after the read, its answer on record. -/
def State.readByteObserved (b : Buf) (o : Nat) (s : State) : State :=
  (s.readByte b o).2.observe (.byte b o (s.readByte b o).1)

/-- `RDB` (R111). -/
def State.rdbMove (b : Buf) (o : Nat) (s : State) : Move :=
  if o < s.cap b then .go (s.readByteObserved b o) else .fault (.noSuchByte b o)

/-- A binding of the pixel source: a hazard while BUSY (R142, U7). -/
def State.bindNow (src : PixelSource) (s : State) : State :=
  if s.work.phase = .busy then s.bindingHazard else { s with source := src }

/-- One `RD STATUS` of POLL, which goes on until bit 0 of the value is 0 (R64). -/
def State.pollNow (s : State) : State :=
  let t := s.readObserved .status
  if s.status.getLsbD 0 then t.push [.poll] else t

/-- The `RD OUT_LEN -> n` of COPY, and the rest of it (R64). -/
def State.copyStart (s : State) : State :=
  (s.readObserved .outLen).push [.copyFrom 0 (s.readReg .outLen).1]

/-- COPY from offset `o` on (R64): `RDB OUT[o] -> v`, to be followed by `WRB IN[o], v`, or, past the last
byte, `WR IN_LEN, n`. -/
def State.copyMove (o : Nat) (n : Word) (s : State) : Move :=
  if o < n.toNat then
    if o < s.cap .outBuf then
      .go ((s.readByteObserved .outBuf o).push
        [.wrb .inBuf o (s.readByte .outBuf o).1, .copyFrom (o + 1) n])
    else .fault (.noSuchByte .outBuf o)
  else .go (s.writeReg .inLen n)

/-- One move of the host. -/
def State.hostMove (ev : Event) (s : State) : Move :=
  match ev with
  | .wr index v => s.wrMove index v
  | .rd index => s.rdMove index
  | .wrb b o v => s.wrbMove b o v
  | .rdb b o => s.rdbMove b o
  | .otherWidth bits => .refuse (.noSuchWidth bits)
  | .bind src => .go (s.bindNow src)
  | .poll => .go s.pollNow
  | .copy => .go s.copyStart
  | .copyFrom o n => s.copyMove o n
  | .reset => .go s.resetNow

end Sys2Proof.Machine
end

