-- ==== Sys2Proof/Machine/Schedule.lean ====
section
/-!
DEFINITION. Which agent moves next (10_state.md R13, 20_memory.md R44, 70_reset_and_hazards.md R146), and the
placing of an instruction where the machine takes it next.
-/
namespace Sys2Proof.Machine

/-- The host's first pending move, taken off its list. -/
def State.hostTurn (s : State) : Move :=
  match s.events with
  | [] => .go s
  | ev :: rest => { s with events := rest }.hostMove ev

/-- The next move. While IDLE the block has no step (R116, 60_exceptions.md R138), so only the host moves,
and without a pending move the machine waits. While BUSY both can move: `sched` says which, and when it says
nothing, or the host has no pending move, the block does. `sched` is finite, so the block moves again and
again (weak fairness, R146; log 9). -/
def State.nextMove (s : State) : Move :=
  match s.work.phase with
  | .idle => s.hostTurn
  | .busy =>
    match s.events, s.sched with
    | [], _ => s.blockMove
    | _ :: _, [] => s.blockMove
    | _ :: _, .block :: turns => { s with sched := turns }.blockMove
    | _ :: _, .host :: turns => { s with sched := turns }.hostTurn

/-- The state with the command word `v` as the host's next move: an idle block and a pending `WR CMD`
(log 14). -/
def State.placeCommand (s : State) (v : Word) : State :=
  { s with work := { s.work with phase := .idle }, events := .wr 0 v :: s.events }

/-- The bytes stored in IN from offset `o` on. -/
def Memory.storeBytes (m : Memory) (o : Nat) : List Byte → Memory
  | [] => m
  | b :: bs => (m.write o b).storeBytes (o + 1) bs

/-- The state in which a DECODE, its start checks passed, is at a stream that holds just `bs`, and the block
moves next (log 14). -/
def State.placeToken (s : State) (bs : List Byte) : State :=
  { s with
    inBuf := s.inBuf.storeBytes s.work.pc bs
    work := { s.work with
      phase := .busy, opl := .decode, checked := true, e := tableEscape bs
      n := BitVec.ofNat 32 (s.work.pc + bs.length) }
    sched := .block :: s.sched }

end Sys2Proof.Machine
end

