-- ==== Sys2Proof/Machine/Step.lean ====
section
/-!
DEFINITION. One step of the machine, and an instruction placed where the next step takes it.
-/
namespace Sys2Proof.Machine

/-- One step: the next move of the host or of the block. -/
def step (s : State) : Host.Outcome State Fault Refusal :=
  match s.nextMove with
  | .run i t => exec i t
  | .go t => .next t
  | .fault f => .fault f
  | .refuse r => .refused r

/-- The state whose next step runs the instruction with the table word `w` of `nbits` bits: a command word
as the host's next write to CMD, a token as the input of a running DECODE (log 13, log 14). -/
def State.withFetchWord (s : State) (nbits w : Nat) : State :=
  if nbits = 32 then s.placeCommand (BitVec.ofNat 32 w)
  else s.placeToken (tableBytes (nbits / 8) w)

end Sys2Proof.Machine
end

