-- ==== Sys2Proof/Machine/Instances.lean ====
section
/-!
DEFINITION. N_INST independent block instances (00_scope.md R8, 60_exceptions.md R136): a list of states, of
which one takes a step at a time.
-/
namespace Sys2Proof.Machine

/-- A step of instance `k`; the others keep their states. "They share no state" (10_state.md R13). An
instance that does not exist takes no step. -/
def stepInstance (k : Nat) (sys : List State) : Option (Host.Outcome (List State) Fault Refusal) :=
  match sys[k]? with
  | none => none
  | some s =>
    match step s with
    | .next t => some (.next (sys.set k t))
    | .fault f => some (.fault f)
    | .refused r => some (.refused r)

/-- The N_INST instances right after reset: each starts idle (R136). DESIGN CHOICE (log 20): the spec does
not say whether unspecified values of two instances can differ; instance `k` draws from the stream `k`, so
that ESCAPE and the unwritten bytes of two instances are not related. -/
def resetInstances (configs : List Config) : List State := configs.mapIdx State.resetWith

end Sys2Proof.Machine
end

