-- ==== Sys2Proof/Machine/Program.lean ====
section
/-!
DEFINITION. The notations of 30_encoding.md section 5: the host's pseudo-instructions as lists of moves (R64),
and token lines (R63). POLL and COPY are moves of their own (`Event`).
-/
namespace Sys2Proof.Machine

/-- `PACK <px>, <on>`: bind the pixel source and predicate, then `WR CMD, 0x00000001`. -/
def Program.pack (src : PixelSource) : List Event := [.bind src, .wr 0 0x00000001]

/-- `ENCODE`: `WR CMD, 0x00000002`. -/
def Program.encode : List Event := [.wr 0 0x00000002]

/-- `DECODE`: `WR CMD, 0x00000003`. -/
def Program.decode : List Event := [.wr 0 0x00000003]

/-- `WRB IN[o], b0`, `WRB IN[o+1], b1`, … -/
def Program.storeFrom (o : Nat) : List Byte → List Event
  | [] => []
  | b :: bs => .wrb .inBuf o b :: Program.storeFrom (o + 1) bs

/-- `LOAD [b0, ..., bn−1]`: the bytes into IN from offset 0 on, then `WR IN_LEN, n`. -/
def Program.load (bs : List Byte) : List Event :=
  Program.storeFrom 0 bs ++ [.wr 6 (BitVec.ofNat 32 bs.length)]

/-- The token lines of R63 as bytes, under `.escape e`. A line is legal only when it is a LIT other than e, a
RUN of 2 to 255, or an ESC; another list of lines has no bytes. -/
def Program.assemble (e : Byte) (tokens : List Instr) : Option (List Byte) :=
  if tokens.all fun i => i.isToken && i.wf && i.fits e then some (tokens.flatMap Instr.bytes) else none

/-- The hexadecimal digit of a number below 16. -/
def Program.hexDigit (k : Nat) : String := String.singleton ("0123456789ABCDEF".toList.getD k '?')

/-- A byte as `0xvv`. -/
def Program.hexByte (b : Byte) : String :=
  "0x" ++ Program.hexDigit (b.toNat / 16) ++ Program.hexDigit (b.toNat % 16)

/-- The line R63 writes for a token; nothing else has a line. -/
def Program.tokenLine : Instr → Option String
  | .lit b => some ("LIT " ++ Program.hexByte b)
  | .run _ n v => some ("RUN " ++ toString n.toNat ++ ", " ++ Program.hexByte v)
  | .esc _ => some "ESC"
  | .pack => none
  | .encode => none
  | .decode => none
  | .illegalCmdOp0 _ => none
  | .illegalCmdRsvd _ _ => none
  | .pixel8 _ _ _ _ _ _ _ _ => none
  | .illegalEscValue _ _ => none
  | .illegalCount0 _ => none
  | .truncCount _ => none
  | .truncValue _ _ => none

end Sys2Proof.Machine
end

