-- ==== Sys2Proof/Safety.lean ====
section
/-!
DEFINITION. What a safe run is, in the terms the statements use: the invariant that every step keeps, the
completion tuple of a command (43_host_interface.md R119), runs of the block, and frames.
-/
namespace Sys2Proof.Machine

/-- The host has broken no hazard rule: the premise that "a claim about the block takes" (10_state.md R33). -/
abbrev State.clean (s : State) : Prop := s.faults = []

/-- Both buffers in canonical form, nothing listed at or above a capacity (10_state.md R28). -/
abbrev State.buffersOk (s : State) : Prop :=
  s.inBuf.wf ∧ s.outBuf.wf ∧ s.inBuf.below s.cfg.inCap.val ∧ s.outBuf.below s.cfg.outCap.val

/-- A started command whose start checks have not run: the cursors of R112. -/
abbrev Working.fresh (k : Working) : Prop := k.acc = [] ∧ k.pc = 0 ∧ k.y = 0 ∧ k.g = 0

/-- A PACK past its start checks: the output so far has one byte for each group before the cursor, and all of
it fits (40_pack.md R68, R71, R72). -/
abbrev Working.packOk (k : Working) (outCap : Nat) : Prop :=
  k.w.toNat % 8 = 0 ∧ k.h.toNat * (k.w.toNat / 8) ≤ outCap ∧
  k.acc.length = k.y * (k.w.toNat / 8) + k.g ∧ k.y ≤ k.h.toNat ∧
  (k.g < k.w.toNat / 8 ∨ (k.g = 0 ∧ k.w.toNat / 8 = 0)) ∧ (k.y = k.h.toNat → k.g = 0)

/-- An ENCODE or DECODE past its start checks: "no cursor is ever larger than its input's length" (R26),
the input fits IN, and the output so far fits OUT (R88, R104). -/
abbrev Working.streamOk (k : Working) (inCap outCap : Nat) : Prop :=
  k.n.toNat ≤ inCap ∧ k.pc ≤ k.n.toNat ∧ k.acc.length ≤ outCap

/-- The working state of a running command (R32). -/
abbrev State.runningOk (s : State) : Prop :=
  s.work.err = none ∧
  if s.work.checked = false then s.work.fresh
  else match s.work.opl with
    | .pack => s.work.packOk s.cfg.outCap.val
    | .encode => 2 ≤ s.work.m.toNat ∧ s.work.streamOk s.cfg.inCap.val s.cfg.outCap.val
    | .decode => s.work.streamOk s.cfg.inCap.val s.cfg.outCap.val

/-- The result registers: RESULT is NONE while a command runs (R17); "OUT_LEN never exceeds OUT_CAP" (R23)
and, idle, is 0 unless the last command succeeded; ERR_OFFSET lies in the input and, idle, is 0 unless the
error names an offset (R24). An idle block has nothing in ACC (R36, R117). -/
abbrev State.resultOk (s : State) : Prop :=
  s.reg.outLen.toNat ≤ s.cfg.outCap.val ∧ s.reg.errOffset.toNat ≤ s.cfg.inCap.val ∧
  match s.work.phase with
  | .busy => s.reg.result = .none
  | .idle =>
    s.work.acc = [] ∧
    (s.reg.result ≠ .ok → s.reg.outLen = 0) ∧
    (s.reg.result ≠ .truncatedStream → s.reg.result ≠ .malformedToken → s.reg.errOffset = 0)

/-- The invariant of every step. After a hazard the registers may hold anything (R142), so what it says of
them has FAULT empty as its premise (R33). -/
def State.Inv (s : State) : Prop :=
  s.buffersOk ∧
  (s.work.phase = .busy → s.runningOk) ∧
  (s.spoiled = true → s.work.phase = .busy ∧ s.faults ≠ []) ∧
  (s.clean → s.resultOk)

/-- "Its result is the tuple (STATUS.RESULT, OUT_LEN, ERR_OFFSET, OUT[0 .. OUT_LEN−1])" (R119). -/
structure Completion where
  result    : ResultCode
  outLen    : Word
  errOffset : Word
  output    : List Byte
deriving DecidableEq, Repr

/-- The completion tuple an idle block shows. -/
def State.completion (s : State) : Completion :=
  { result := s.reg.result, outLen := s.reg.outLen, errOffset := s.reg.errOffset,
    output := s.outBuf.bytes 0 s.reg.outLen.toNat }

/-- The completion tuple of a command that succeeded with output `out`. -/
def Completion.success (out : List Byte) : Completion :=
  { result := .ok, outLen := BitVec.ofNat 32 out.length, errOffset := 0, output := out }

/-- The completion tuple of a command that failed. -/
def Completion.failure (code : ResultCode) (off : Nat) : Completion :=
  { result := code, outLen := 0, errOffset := BitVec.ofNat 32 off, output := [] }

/-- `k` steps from `s` lead to `t`, none of them stopping. -/
def reaches (k : Nat) (s t : State) : Prop :=
  match k with
  | 0 => s = t
  | k + 1 => ∃ u, step s = .next u ∧ reaches k u t

/-- The state in which a command of operation `op` has just been started and the host makes no further
move: what the block does from here is its own. -/
def State.justStarted (op : Op) (s : State) : State := { s.start op with events := [], sched := [] }

/-- The block moves next, `u` being the state without the turn that uses up: it is BUSY, and the host has no
pending move or no turn, or the schedule gives the block a turn. -/
def State.blockNext (s u : State) : Prop :=
  s.work.phase = .busy ∧
    (((s.events = [] ∨ s.sched = []) ∧ u = s) ∨
      ∃ turns, s.events ≠ [] ∧ s.sched = .block :: turns ∧ u = { s with sched := turns })

/-- The host moves next, its first pending move being `ev` and `u` the state without it: the block is idle,
or the schedule gives the host the turn. -/
def State.hostNext (s : State) (ev : Event) (u : State) : Prop :=
  ∃ rest, s.events = ev :: rest ∧
    ((s.work.phase = .idle ∧ u = { s with events := rest }) ∨
      ∃ turns, s.work.phase = .busy ∧ s.sched = .host :: turns ∧
        u = { s with events := rest, sched := turns })

/-- The running command is of operation `op` and past its start checks. -/
def State.iterating (op : Op) (s : State) : Prop := s.work.checked = true ∧ s.work.opl = op

/-- The running command is of operation `op` and its start checks come next. -/
def State.checking (op : Op) (s : State) : Prop := s.work.checked = false ∧ s.work.opl = op

/-- The bytes of IN at the cursor begin with `bs`, all of it inside the input. -/
def State.atCursor (s : State) (bs : List Byte) : Prop :=
  s.work.pc + bs.length ≤ s.work.n.toNat ∧ s.inBuf.bytes s.work.pc bs.length = bs

/-- The input ends with `bs` at the cursor. -/
def State.endsWith (s : State) (bs : List Byte) : Prop :=
  s.work.pc + bs.length = s.work.n.toNat ∧ s.inBuf.bytes s.work.pc bs.length = bs

/-- The input of a command: `IN[0 .. IN_LEN−1]`. -/
def State.input (s : State) : List Byte := s.inBuf.bytes 0 s.reg.inLen.toNat

/-- Only working state has changed: the frame of an internal step that does not complete. -/
def State.onlyWork (s t : State) : Prop := t = { s with work := t.work }

/-- Every byte of both buffers reads as before. -/
def State.sameBytes (s t : State) : Prop := ∀ b a, (t.buf b).read a = (s.buf b).read a

/-- The frame of a completion (R117): the parameters, the parameter registers, IN, FAULT and everything of
the host's are as before, and no cursor or latched parameter moves. -/
def State.sameButResult (s t : State) : Prop :=
  t.cfg = s.cfg ∧ t.inBuf = s.inBuf ∧ (∀ a, t.inBuf.read a = s.inBuf.read a) ∧ t.faults = s.faults ∧
  t.source = s.source ∧ t.events = s.events ∧ t.sched = s.sched ∧ t.observed = s.observed ∧
  t.reg = { s.reg with result := t.reg.result, outLen := t.reg.outLen, errOffset := t.reg.errOffset } ∧
  t.work = { s.work with phase := .idle, acc := [], err := t.work.err }

/-- What an error of a running command leaves (R117, R129): the completion tuple of the failure, the STATUS
word, every byte of OUT a draw, and everything else as the frame of a completion says. That ERR still holds
the error in the idle block is the model's reading (log 11). -/
def State.failsWith (s t : State) (code : ResultCode) (off : Nat) : Prop :=
  t.completion = Completion.failure code off ∧ t.status = statusWord code .idle ∧
  (∀ a, t.outBuf.read a = Config.freeByte s.draws a) ∧ t.work.err = some (code, off) ∧ s.sameButResult t

/-- What the successful end of a running command leaves (R30, R117); that it leaves ERR is the model's reading
(log 11). -/
def State.succeedsWith (s t : State) (out : List Byte) : Prop :=
  t.completion = Completion.success out ∧ t.status = statusWord .ok .idle ∧
  (∀ a, out.length ≤ a → t.outBuf.read a = Config.freeByte s.draws a) ∧ t.work.err = s.work.err ∧
  s.sameButResult t

/-- No two adjacent bytes are 0x00 (41_encode.md R87). -/
def noZeroPair (bs : List Byte) : Prop := ∀ i : Nat, ¬ (bs[i]? = some (0 : Byte) ∧ bs[i + 1]? = some (0 : Byte))

end Sys2Proof.Machine
end

