-- ==== Sys2Proof/Certificates/Slice0/Obligations.lean ====
section
/-!
DEFINITION. The statements for the provers. Each docstring names the rules of spec/ a statement formalises;
OBLIGATIONS.json has its basis and its quotation.
-/
open Sys2Proof Sys2Proof.Machine

/-! ### Encodings (30_encoding.md) -/

/-- The encoding of every well-formed instruction, under an escape byte it fits, decodes to it (R49 to R62).
Log 12: a reserved word with OP = 00 is `illegalCmdOp0`. -/
def Obligations.EncodedInstructionDecodesToItself : Prop :=
  ∀ (e : Byte) (i : Instr), i.wf = true → i.fits e = true → decode e (Sys2Proof.encode i) = .ok (i, [])

/-- Tokens "serialized contiguously with no separators" decode to the same tokens in order (R51, R52). -/
def Obligations.TokenStreamDecodesInOrder : Prop :=
  ∀ (e : Byte) (tokens : List Instr) (k : Nat),
    (∀ i ∈ tokens, i.isToken = true ∧ i.wf = true ∧ i.fits e = true) → tokens.length ≤ k →
    decodeStream e k (tokens.flatMap Instr.bytes) = .ok tokens

/-- What the decoder answers for a nonempty stream is well-formed, fits the escape byte, and its encoding is
exactly what stood before the rest of the stream; a truncated pattern leaves no rest (R52, R57, R58). -/
def Obligations.DecodedTokenIsPrefixOfStream : Prop :=
  (∀ (e b : Byte) (bs : List Byte), ∃ i rest, decodeToken e (b :: bs) = .ok (i, rest)) ∧
  (∀ (e : Byte) (bs : List Byte) (i : Instr) (rest : List Byte),
    decodeToken e bs = .ok (i, rest) →
    i.wf = true ∧ i.fits e = true ∧ i.bytes ++ rest = bs ∧ (i.endsStream = true → rest = []))

/-- "Only 0x00000001, 0x00000002 and 0x00000003 are legal" (R61, R62): every other word decodes to an illegal
command row, and re-encodes to itself. -/
def Obligations.OnlyThreeCommandWordsAreLegal : Prop :=
  decodeCommand 1 = .pack ∧ decodeCommand 2 = .encode ∧ decodeCommand 3 = .decode ∧
  ∀ w : Word, w ≠ 1 → w ≠ 2 → w ≠ 3 →
    (w.extractLsb' 0 2 = 0 ∨ w.extractLsb' 2 30 ≠ 0) ∧
    ((∃ r, decodeCommand w = .illegalCmdOp0 r) ∨ ∃ r op, decodeCommand w = .illegalCmdRsvd r op) ∧
    Sys2Proof.encode (decodeCommand w) = .command w

/-- A few encodings written out from the spec's tables decode to their instructions (R53 to R57, R60, R61,
and the example of R50). -/
def Obligations.SpecEncodingsDecode : Prop :=
  decodeCommand 0b00000000000000000000000000000001 = .pack ∧
  decodeCommand 0b00000000000000000000000000000010 = .encode ∧
  decodeCommand 0b00000000000000000000000000000011 = .decode ∧
  decodeCommand 0x00000000 = .illegalCmdOp0 0 ∧
  decodeCommand 0x80000001 = .illegalCmdRsvd 0x20000000 1 ∧
  decodePacked 0b11001001 = .pixel8 true true false false true false false true ∧
  decodeToken 0x01 [0x41] = .ok (.lit 0x41, []) ∧
  decodeToken 0x01 [0x01, 0xFF, 0x41] = .ok (.run 0x01 0xFF 0x41, []) ∧
  decodeToken 0x01 [0x01, 0x01, 0x01] = .ok (.esc 0x01, []) ∧
  decodeToken 0x01 [0x01, 0x01, 0x02] = .ok (.illegalEscValue 0x01 0x02, []) ∧
  decodeToken 0x01 [0x01, 0x00, 0x07] = .ok (.illegalCount0 0x01, [0x07]) ∧
  decodeToken 0x01 [0x01] = .ok (.truncCount 0x01, []) ∧
  decodeToken 0x01 [0x01, 0x05] = .ok (.truncValue 0x01 0x05, [])

/-! ### A step runs the decoded instruction -/

/-- A host write to CMD is a step that runs the instruction its word encodes, the write being taken off the
host's list (R108, R112). -/
def Obligations.StepRunsCommandWord : Prop :=
  ∀ (s u : State) (v : Word), s.hostNext (.wr 0 v) u → step s = exec (decodeCommand v) u

/-- A block step of a running DECODE runs the token that the bytes of IN at the cursor encode under the
latched escape byte (R105), with nothing around it but the used turn of the schedule. -/
def Obligations.StepRunsDecodedToken : Prop :=
  ∀ (s u : State) (i : Instr) (rest : List Byte), s.blockNext u → u.iterating .decode →
    decodeToken u.work.e (u.inBuf.bytes u.work.pc (min 3 (u.work.n.toNat - u.work.pc))) = .ok (i, rest) →
    step s = exec i u

/-- A block step of a running PACK runs the packed byte of the eight pixels at its cursor (R72). -/
def Obligations.StepRunsPackedGroup : Prop :=
  ∀ (s u : State), s.blockNext u → u.iterating .pack → u.work.y < u.work.h.toNat →
    0 < u.work.w.toNat / 8 →
    step s = exec (.pixel8 (u.work.px.isOn (8 * u.work.g) u.work.y)
      (u.work.px.isOn (8 * u.work.g + 1) u.work.y) (u.work.px.isOn (8 * u.work.g + 2) u.work.y)
      (u.work.px.isOn (8 * u.work.g + 3) u.work.y) (u.work.px.isOn (8 * u.work.g + 4) u.work.y)
      (u.work.px.isOn (8 * u.work.g + 5) u.work.y) (u.work.px.isOn (8 * u.work.g + 6) u.work.y)
      (u.work.px.isOn (8 * u.work.g + 7) u.work.y)) u

/-- The word that the decoder reads as an instruction, placed by `State.withFetchWord`, is what the next step
runs (log 13, log 14: the placing is the model's). -/
def Obligations.PlacedWordIsRunNext : Prop :=
  ∀ (s : State) (nbits w : Nat) (i : Instr), s.work.pc + 3 < 2 ^ 32 →
    decodeTableWord nbits w = some i →
    ∃ u, step (s.withFetchWord nbits w) = exec i u ∧ u.work = (s.withFetchWord nbits w).work ∧
      u.inBuf = (s.withFetchWord nbits w).inBuf ∧ u.reg = s.reg ∧ u.outBuf = s.outBuf

/-! ### Commands (43_host_interface.md) -/

/-- PACK, ENCODE and DECODE while idle: the parameters are latched, the cursors are 0, BUSY is 1 and RESULT
NONE, and nothing else changes (R112 to R115). -/
def Obligations.CommandStartsAndLatches : Prop :=
  ∀ (s : State), s.work.phase = .idle →
    ∀ p ∈ [(Instr.pack, Op.pack), (Instr.encode, Op.encode), (Instr.decode, Op.decode)],
    ∃ t, exec p.1 s = .next t ∧
      t.work = { phase := .busy, opl := p.2, e := s.reg.escape, m := s.reg.minRun, w := s.reg.width,
                 h := s.reg.height, n := s.reg.inLen,
                 px := if p.2 = .pack then s.source else s.work.px,
                 pc := 0, y := 0, g := 0, checked := false, acc := [], err := none } ∧
      t.reg = { s.reg with result := .none } ∧ t.status = 0x00000001 ∧ t.spoiled = false ∧
      t = { s with reg := t.reg, work := t.work, spoiled := t.spoiled } ∧ s.sameBytes t

/-- An illegal command word completes at once with IllegalCommand: by either row's meaning, and in the very
step of the host's write to CMD (R62, R112, R127), every byte of OUT a draw (R117). That ERR stays as it is is
the model's reading (log 11). -/
def Obligations.IllegalCommandCompletesAtOnce : Prop :=
  (∀ (s : State) (r : BitVec 30) (op : BitVec 2), s.work.phase = .idle →
    ∀ i ∈ [Instr.illegalCmdOp0 r, Instr.illegalCmdRsvd r op],
    ∃ t, exec i s = .next t ∧ t.completion = Completion.failure .illegalCommand 0 ∧
      t.status = 0x00000070 ∧ (∀ a, t.outBuf.read a = Config.freeByte s.draws a) ∧
      t.work.err = s.work.err ∧ s.sameButResult t) ∧
  (∀ (s u : State) (w : Word), s.work.phase = .idle → s.hostNext (.wr 0 w) u →
    (w.extractLsb' 0 2 = 0 ∨ w.extractLsb' 2 30 ≠ 0) →
    ∃ t, step s = .next t ∧ t.work.phase = .idle ∧ t.status = 0x00000070 ∧
      t.reg = { s.reg with result := .illegalCommand, outLen := 0, errOffset := 0 })

/-- A write of any word to CMD while BUSY starts nothing: it is a hazard, which FAULT records (R142, R136).
What the registers then hold is unspecified (log 6), and so is every byte of OUT, where the command's output
would stand (R108, R119, R142). -/
def Obligations.CommandWriteWhileBusyIsHazard : Prop :=
  ∀ (s : State) (r : BitVec 30) (op : BitVec 2), s.work.phase = .busy →
    ∀ i ∈ [Instr.pack, Instr.encode, Instr.decode, Instr.illegalCmdOp0 r, Instr.illegalCmdRsvd r op],
    ∃ t, exec i s = .next t ∧ t.faults = s.faults ++ [.registerWrite .cmd] ∧ t.cfg = s.cfg ∧
      t.inBuf = s.inBuf ∧ (∀ a, t.inBuf.read a = s.inBuf.read a) ∧
      (∀ a, t.outBuf.read a = Config.freeByte s.draws a) ∧ t.source = s.source ∧
      t.events = s.events ∧ t.sched = s.sched ∧ t.observed = s.observed ∧
      t.work = { s.work with phase := t.work.phase }

/-- The start checks of PACK (R66, R71, R113): InvalidDimensions first, then the exact product against
OUT_CAP, and otherwise the command goes on. ERR after a failed check is log 11's. -/
def Obligations.PackChecksWidthThenCapacity : Prop :=
  ∀ (s u : State), s.blockNext u → u.checking .pack → u.spoiled = false →
    (u.work.w.toNat % 8 ≠ 0 → ∃ t, step s = .next t ∧ u.failsWith t .invalidDimensions 0) ∧
    (u.work.w.toNat % 8 = 0 → u.cfg.outCap.val < u.work.h.toNat * (u.work.w.toNat / 8) →
      ∃ t, step s = .next t ∧ u.failsWith t .capacityExceeded 0) ∧
    (u.work.w.toNat % 8 = 0 → u.work.h.toNat * (u.work.w.toNat / 8) ≤ u.cfg.outCap.val →
      step s = .next { u with work := { u.work with checked := true } })

/-- The start checks of ENCODE (R76, R114): InvalidParameter before the capacity of IN (R128). ERR after a
failed check is log 11's. -/
def Obligations.EncodeChecksMinRunThenCapacity : Prop :=
  ∀ (s u : State), s.blockNext u → u.checking .encode → u.spoiled = false →
    (u.work.m.toNat < 2 → ∃ t, step s = .next t ∧ u.failsWith t .invalidParameter 0) ∧
    (2 ≤ u.work.m.toNat → u.cfg.inCap.val < u.work.n.toNat →
      ∃ t, step s = .next t ∧ u.failsWith t .capacityExceeded 0) ∧
    (2 ≤ u.work.m.toNat → u.work.n.toNat ≤ u.cfg.inCap.val →
      step s = .next { u with work := { u.work with checked := true } })

/-- The start check of DECODE (R115): the capacity of IN, whatever MIN_RUN is (R100). ERR after the failed
check is log 11's. -/
def Obligations.DecodeChecksCapacityOnly : Prop :=
  ∀ (s u : State), s.blockNext u → u.checking .decode → u.spoiled = false →
    (u.cfg.inCap.val < u.work.n.toNat → ∃ t, step s = .next t ∧ u.failsWith t .capacityExceeded 0) ∧
    (u.work.n.toNat ≤ u.cfg.inCap.val →
      step s = .next { u with work := { u.work with checked := true } })

/-- A command whose loop has finished completes with OK: the output stands at the start of OUT, the bytes
beyond are draws, OUT_LEN is its length, all in one step (R30, R116, R117). That ERR stays as it is is the
model's reading (log 11). -/
def Obligations.FinishedCommandCompletes : Prop :=
  ∀ (s u : State), s.blockNext u → u.spoiled = false → u.work.acc.length ≤ u.cfg.outCap.val →
    ((u.iterating .pack ∧ (u.work.y = u.work.h.toNat ∨ u.work.w.toNat / 8 = 0)) ∨
      ((u.iterating .encode ∨ u.iterating .decode) ∧ u.work.pc = u.work.n.toNat)) →
    ∃ t, step s = .next t ∧ u.succeedsWith t u.work.acc ∧ t.status = 0x00000010

/-! ### Tokens (42_decode.md) -/

/-- LIT: one output byte, cursor on by 1 (R93): the function, the instruction's effect and frame where the
output fits (R104), and the step that runs it. -/
def Obligations.LiteralEmitsItsByte : Prop :=
  (∀ (e b : Byte) (pc : Nat) (rest : List Byte), b ≠ e →
    Codec.decodeFrom e pc (b :: rest) = (Codec.decodeFrom e (pc + 1) rest).map (b :: ·)) ∧
  (∀ (s : State) (b : Byte), s.work.acc.length + 1 ≤ s.cfg.outCap.val →
    ∃ t, exec (.lit b) s = .next t ∧ s.onlyWork t ∧ s.sameBytes t ∧
      t.work = { s.work with acc := s.work.acc ++ [b], pc := s.work.pc + 1 }) ∧
  (∀ (s u : State) (b : Byte), s.blockNext u → u.iterating .decode → u.atCursor [b] →
    b ≠ u.work.e → step s = exec (.lit b) u)

/-- RUN: the value repeated count times, the escape byte included, cursor on by 3 (R94). -/
def Obligations.RunRepeatsItsValue : Prop :=
  (∀ (e c v : Byte) (pc : Nat) (rest : List Byte), 2 ≤ c.toNat →
    Codec.decodeFrom e pc (e :: c :: v :: rest) =
      (Codec.decodeFrom e (pc + 3) rest).map (List.replicate c.toNat v ++ ·)) ∧
  (∀ (s : State) (e c v : Byte), s.work.acc.length + c.toNat ≤ s.cfg.outCap.val →
    ∃ t, exec (.run e c v) s = .next t ∧ s.onlyWork t ∧ s.sameBytes t ∧
      t.work = { s.work with acc := s.work.acc ++ List.replicate c.toNat v, pc := s.work.pc + 3 }) ∧
  (∀ (s u : State) (c v : Byte), s.blockNext u → u.iterating .decode →
    u.atCursor [u.work.e, c, v] → 2 ≤ c.toNat → step s = exec (.run u.work.e c v) u)

/-- ESC: one escape byte, cursor on by 3 (R95). -/
def Obligations.EscapedLiteralEmitsEscape : Prop :=
  (∀ (e : Byte) (pc : Nat) (rest : List Byte),
    Codec.decodeFrom e pc (e :: 1 :: e :: rest) = (Codec.decodeFrom e (pc + 3) rest).map (e :: ·)) ∧
  (∀ (s : State) (e : Byte), s.work.acc.length + 1 ≤ s.cfg.outCap.val →
    ∃ t, exec (.esc e) s = .next t ∧ s.onlyWork t ∧ s.sameBytes t ∧
      t.work = { s.work with acc := s.work.acc ++ [e], pc := s.work.pc + 3 }) ∧
  (∀ (s u : State), s.blockNext u → u.iterating .decode → u.atCursor [u.work.e, 1, u.work.e] →
    step s = exec (.esc u.work.e) u)

/-- A token whose output would make the output longer than OUT_CAP ends the command with CapacityExceeded,
ERR_OFFSET 0 and OUT_LEN 0 (R104, R126). ERR after it is log 11's. -/
def Obligations.TokenOverCapacityFails : Prop :=
  ∀ (s : State), s.spoiled = false →
    (∀ b, s.cfg.outCap.val < s.work.acc.length + 1 →
      ∃ t, exec (.lit b) s = .next t ∧ s.failsWith t .capacityExceeded 0) ∧
    (∀ e n v, s.cfg.outCap.val < s.work.acc.length + n.toNat →
      ∃ t, exec (.run e n v) s = .next t ∧ s.failsWith t .capacityExceeded 0) ∧
    (∀ e, s.cfg.outCap.val < s.work.acc.length + 1 →
      ∃ t, exec (.esc e) s = .next t ∧ s.failsWith t .capacityExceeded 0)

/-- `e, 01, v` with `v ≠ e`: MalformedToken at the value byte, pc + 2 (R96); what the error leaves is R117 and
R129. That ERR holds it in the idle block is the model's reading (log 11). -/
def Obligations.EscapedValueOtherThanEscapeIsMalformed : Prop :=
  (∀ (e v : Byte) (pc : Nat) (rest : List Byte), v ≠ e →
    Codec.decodeFrom e pc (e :: 1 :: v :: rest) = .error (.malformedToken, pc + 2)) ∧
  (∀ (s : State) (e v : Byte), s.spoiled = false →
    ∃ t, exec (.illegalEscValue e v) s = .next t ∧ s.failsWith t .malformedToken (s.work.pc + 2)) ∧
  (∀ (s u : State) (v : Byte), s.blockNext u → u.iterating .decode → u.atCursor [u.work.e, 1, v] →
    v ≠ u.work.e → u.spoiled = false →
    ∃ t, step s = .next t ∧ u.failsWith t .malformedToken (u.work.pc + 2))

/-- `e, 00`, whatever follows, even nothing: MalformedToken at the count byte, pc + 1 (R97); what the error
leaves is R117 and R129. That ERR holds it in the idle block is the model's reading (log 11). -/
def Obligations.CountZeroIsMalformed : Prop :=
  (∀ (e : Byte) (pc : Nat) (rest : List Byte),
    Codec.decodeFrom e pc (e :: 0 :: rest) = .error (.malformedToken, pc + 1)) ∧
  (∀ (s : State) (e : Byte), s.spoiled = false →
    ∃ t, exec (.illegalCount0 e) s = .next t ∧ s.failsWith t .malformedToken (s.work.pc + 1)) ∧
  (∀ (s u : State), s.blockNext u → u.iterating .decode → u.atCursor [u.work.e, 0] →
    u.spoiled = false →
    ∃ t, step s = .next t ∧ u.failsWith t .malformedToken (u.work.pc + 1))

/-- A stream that ends inside a token: TruncatedStream at the first missing byte, which is the length of the
stream (R98); what the error leaves is R117 and R129. That ERR holds it in the idle block is the model's
reading (log 11). -/
def Obligations.StreamEndingInTokenIsTruncated : Prop :=
  (∀ (e : Byte) (pc : Nat), Codec.decodeFrom e pc [e] = .error (.truncatedStream, pc + 1)) ∧
  (∀ (e c : Byte) (pc : Nat), c ≠ 0 →
    Codec.decodeFrom e pc [e, c] = .error (.truncatedStream, pc + 2)) ∧
  (∀ (s : State) (e : Byte), s.spoiled = false →
    ∃ t, exec (.truncCount e) s = .next t ∧ s.failsWith t .truncatedStream (s.work.pc + 1)) ∧
  (∀ (s : State) (e c : Byte), s.spoiled = false →
    ∃ t, exec (.truncValue e c) s = .next t ∧ s.failsWith t .truncatedStream (s.work.pc + 2)) ∧
  (∀ (s u : State), s.blockNext u → u.iterating .decode → u.endsWith [u.work.e] →
    u.spoiled = false →
    ∃ t, step s = .next t ∧ u.failsWith t .truncatedStream (u.work.pc + 1) ∧
      t.reg.errOffset = u.work.n) ∧
  (∀ (s u : State) (c : Byte), s.blockNext u → u.iterating .decode → u.endsWith [u.work.e, c] →
    c ≠ 0 → u.spoiled = false →
    ∃ t, step s = .next t ∧ u.failsWith t .truncatedStream (u.work.pc + 2) ∧
      t.reg.errOffset = u.work.n)

/-! ### The packed byte and the ENCODE iteration -/

/-- PIXEL8: one byte, bit 7 the leftmost pixel, appended to ACC; the PACK cursor goes to the next group, or to
the start of the next row (R38, R69, R72). -/
def Obligations.PackedByteIsAppended : Prop :=
  ∀ (s : State) (a b c d e f g h : Bool),
    ∃ (t : State) (byte : Byte), exec (.pixel8 a b c d e f g h) s = .next t ∧ s.onlyWork t ∧ s.sameBytes t ∧
      [byte.getLsbD 7, byte.getLsbD 6, byte.getLsbD 5, byte.getLsbD 4, byte.getLsbD 3, byte.getLsbD 2,
        byte.getLsbD 1, byte.getLsbD 0] = [a, b, c, d, e, f, g, h] ∧
      t.work = { s.work with
        acc := s.work.acc ++ [byte]
        g := if s.work.g + 1 = s.work.w.toNat / 8 then 0 else s.work.g + 1
        y := if s.work.g + 1 = s.work.w.toNat / 8 then s.work.y + 1 else s.work.y }

/-- One ENCODE iteration, for a run measured in IN from the cursor and capped at 255 (R77): a Run token if it
is long enough, else an Escaped literal if the byte is the escape byte, else a Literal (R78 to R81); the
capacity check comes before the token is appended (R88). ERR after a failed check is log 11's. -/
def Obligations.EncodeIterationEmitsToken : Prop :=
  ∀ (s u : State) (l : Nat), s.blockNext u → u.iterating .encode →
    1 ≤ l → l ≤ 255 → u.work.pc + l ≤ u.work.n.toNat →
    (∀ k < l, u.inBuf.read (u.work.pc + k) = u.inBuf.read u.work.pc) →
    (l = 255 ∨ u.work.pc + l = u.work.n.toNat ∨
      u.inBuf.read (u.work.pc + l) ≠ u.inBuf.read u.work.pc) →
    let v := u.inBuf.read u.work.pc
    let token := if u.work.m.toNat ≤ l then [u.work.e, BitVec.ofNat 8 l, v]
      else if v = u.work.e then [u.work.e, 1, u.work.e] else [v]
    (u.work.acc.length + token.length ≤ u.cfg.outCap.val →
      ∃ t, step s = .next t ∧ u.onlyWork t ∧ u.sameBytes t ∧
        t.work = { u.work with
          acc := u.work.acc ++ token
          pc := if u.work.m.toNat ≤ l then u.work.pc + l else u.work.pc + 1 }) ∧
    (u.cfg.outCap.val < u.work.acc.length + token.length → u.spoiled = false →
      ∃ t, step s = .next t ∧ u.failsWith t .capacityExceeded 0)

/-! ### Reset (70_reset_and_hazards.md) -/

/-- After reset, whatever the parameters and the instance: every register reads its reset value, ESCAPE a draw
of 0 to 255, and the block is idle with nothing in progress (R34). -/
def Obligations.RegistersAfterReset : Prop :=
  ∀ (s : State) (k : Nat), ((s = State.reset ∧ k = 0) ∨ ∃ c, s = State.resetWith k c) →
    ([RegName.cmd, .status, .escape, .minRun, .width, .height, .inLen, .outLen, .errOffset].map
      fun r => (s.readReg r).1) =
      [0, 0, zext32 (Config.escReset { stream := k, num := 0 }), 4, 0, 0, 0, 0, 0] ∧
    s.work.phase = .idle ∧ s.reg.result = .none ∧ s.work.acc = [] ∧ s.work.err = none ∧ s.faults = []

/-- Reset at any time, during a command too: registers at their reset values, ESCAPE and every byte of IN and
OUT a draw, the command gone without a completion; FAULT and the pixel source stay (R33 to R36, R139, R140). -/
def Obligations.ResetAbandonsCommand : Prop :=
  ∀ (s u : State), s.hostNext .reset u →
    ∃ t, step s = .next t ∧ t.status = 0 ∧ t.work.phase = .idle ∧ t.work.acc = [] ∧
      t.work.err = none ∧ t.spoiled = false ∧
      t.reg = { result := .none, escape := Config.escReset s.draws, minRun := 4, width := 0, height := 0,
                inLen := 0, outLen := 0, errOffset := 0 } ∧
      (∀ a, t.inBuf.read a = Config.freeByte s.draws a) ∧
      (∀ a, t.outBuf.read a = Config.freeByte (s.draws.plus 1) a) ∧
      t.faults = s.faults ∧ t.source = s.source ∧ t.cfg = s.cfg ∧ t.events = u.events ∧
      t.sched = u.sched ∧ t.observed = s.observed

/-! ### Host accesses (43_host_interface.md) -/

/-- Idle, a write to a read/write register and then a read of it answer the value written, bits 7:0 of it for
ESCAPE; no other register changes and the buffers stay (R18 to R22, R108, R109). -/
def Obligations.RegisterReadsBackWhatWasWritten : Prop :=
  ∀ (s : State) (v : Word) (rest : List Event), s.work.phase = .idle →
    ∀ p ∈ [(2, RegName.escape, zext32 (v.setWidth 8), { s.reg with escape := v.setWidth 8 }),
           (3, RegName.minRun, v, { s.reg with minRun := v }),
           (4, RegName.width, v, { s.reg with width := v }),
           (5, RegName.height, v, { s.reg with height := v }),
           (6, RegName.inLen, v, { s.reg with inLen := v })],
    s.events = .wr p.1 v :: .rd p.1 :: rest →
    ∃ t, reaches 2 s t ∧ s.sameBytes t ∧
      t = { s with reg := p.2.2.2, events := rest, observed := .reg p.2.1 p.2.2.1 :: s.observed }

/-- Idle, a write to STATUS, OUT_LEN or ERR_OFFSET is ignored (R25, R108). -/
def Obligations.ReadOnlyRegistersIgnoreWrites : Prop :=
  ∀ (s u : State) (v : Word), s.work.phase = .idle → ∀ index ∈ [1, 7, 8],
    s.hostNext (.wr index v) u → step s = .next u

/-- Idle, each register answers its value and the read has no side effect (R41, R109). -/
def Obligations.IdleReadsAnswerWithoutSideEffect : Prop :=
  ∀ (s u : State), s.work.phase = .idle →
    (∀ p ∈ [(0, RegName.cmd, 0), (1, RegName.status, statusWord s.reg.result .idle),
            (2, RegName.escape, zext32 s.reg.escape), (3, RegName.minRun, s.reg.minRun),
            (4, RegName.width, s.reg.width), (5, RegName.height, s.reg.height),
            (6, RegName.inLen, s.reg.inLen), (7, RegName.outLen, s.reg.outLen),
            (8, RegName.errOffset, s.reg.errOffset)],
      s.hostNext (.rd p.1) u →
      step s = .next { u with observed := .reg p.2.1 p.2.2 :: u.observed }) ∧
    (∀ (b : Buf) (o : Nat), o < s.cap b → s.hostNext (.rdb b o) u →
      step s = .next { u with observed := .byte b o ((u.buf b).read o) :: u.observed })

/-- The word of STATUS: BUSY in bit 0, RESULT in bits 7:4 by the eight numbers of R121, the reserved bits 0, no
code above 7 (R17, R25, R121). -/
def Obligations.StatusWordLayout : Prop :=
  (∀ (r : ResultCode) (p : Phase),
    (statusWord r p).toNat = 16 * r.code.toNat + (if p = .busy then 1 else 0) ∧ r.code.toNat ≤ 7) ∧
  (∀ p ∈ [(ResultCode.none, 0), (.ok, 1), (.invalidDimensions, 2), (.invalidParameter, 3),
          (.truncatedStream, 4), (.malformedToken, 5), (.capacityExceeded, 6), (.illegalCommand, 7)],
    (p.1 : ResultCode).code = p.2 ∧ ∀ s : State, s.reg.result = p.1 →
      s.status.extractLsb' 4 4 = p.2 ∧ s.status.extractLsb' 0 1 = s.work.phase.busyBit)

/-- Idle, a host write of a byte in range changes that byte and nothing else: not the other bytes of either
buffer, not OUT_LEN, no register (R110). -/
def Obligations.BufferWriteChangesOneByte : Prop :=
  ∀ (s u : State) (b : Buf) (o : Nat) (v : Byte), s.work.phase = .idle → o < s.cap b →
    s.hostNext (.wrb b o v) u →
    ∃ t, step s = .next t ∧ (t.buf b).read o = v ∧
      (∀ (c : Buf) (a : Nat), c ≠ b ∨ a ≠ o → (t.buf c).read a = (s.buf c).read a) ∧
      t = { u with inBuf := t.inBuf, outBuf := t.outBuf } ∧ (u.buffersOk → t.buffersOk)

/-- A register index above 8, an access width that no space has, and an offset at or above a buffer's
capacity have no step: the model stops, each under its own name (R25, R39, R110, R111; log 16, log 17: the
stops are how the model renders the spec's "refuse"). -/
def Obligations.AccessOutsideTheMapStops : Prop :=
  ∀ (s u : State),
    (∀ (index : Nat) (v : Word), 8 < index → s.hostNext (.wr index v) u →
      step s = .refused (.noSuchRegister index)) ∧
    (∀ (index : Nat), 8 < index → s.hostNext (.rd index) u →
      step s = .refused (.noSuchRegister index)) ∧
    (∀ (bits : Nat), s.hostNext (.otherWidth bits) u → step s = .refused (.noSuchWidth bits)) ∧
    (∀ (b : Buf) (o : Nat) (v : Byte), s.work.phase = .idle → s.cap b ≤ o →
      s.hostNext (.wrb b o v) u → step s = .fault (.noSuchByte b o)) ∧
    (∀ (b : Buf) (o : Nat), s.cap b ≤ o → s.hostNext (.rdb b o) u →
      step s = .fault (.noSuchByte b o))

/-- A host write while BUSY, of a register, of a byte or of the pixel source binding, is recorded in FAULT and
has a next state, in which every byte of OUT is a draw and IN is as before but for the written byte; what it
leaves in the registers is unspecified (R33, R108, R110, R142; log 6). -/
def Obligations.HostWriteWhileBusyIsRecorded : Prop :=
  ∀ (s u : State), s.work.phase = .busy →
    (∀ (index : Nat) (r : RegName) (v : Word), RegName.ofIndex index = some r →
      s.hostNext (.wr index v) u →
      ∃ t, step s = .next t ∧ t.faults = s.faults ++ [.registerWrite r] ∧
        (∀ a, t.outBuf.read a = Config.freeByte s.draws a) ∧ ∀ a, t.inBuf.read a = s.inBuf.read a) ∧
    (∀ (b : Buf) (o : Nat) (v : Byte), s.hostNext (.wrb b o v) u →
      ∃ t, step s = .next t ∧ t.faults = s.faults ++ [.bufferWrite b] ∧
        (∀ a, t.outBuf.read a =
          Config.freeByte (if b = .outBuf ∧ a = o ∧ o < s.cfg.outCap.val then s.draws.plus 7 else s.draws) a) ∧
        ∀ a, t.inBuf.read a =
          if b = .inBuf ∧ a = o ∧ o < s.cfg.inCap.val then Config.freeByte (s.draws.plus 7) a
          else s.inBuf.read a) ∧
    (∀ (src : PixelSource), s.hostNext (.bind src) u →
      ∃ t, step s = .next t ∧ t.faults = s.faults ++ [.pixelBinding] ∧
        (∀ a, t.outBuf.read a = Config.freeByte s.draws a) ∧ ∀ a, t.inBuf.read a = s.inBuf.read a)

/-- FAULT is sticky: no step, a reset included, takes anything out of it, and no step puts anything into it
but a host's move while BUSY (R33). -/
def Obligations.FaultRecordIsSticky : Prop :=
  ∀ (s t : State), step s = .next t →
    s.faults <+: t.faults ∧
    (t.faults ≠ s.faults → s.work.phase = .busy ∧ ∃ ev u, s.hostNext ev u)

/-- While BUSY, in a state of the invariant whose FAULT is empty: CMD reads 0, STATUS reads BUSY = 1 and
RESULT = 0, the parameter registers and IN read their values, and OUT_LEN, ERR_OFFSET and OUT answer draws (R109, R111,
R143). -/
def Obligations.ReadsWhileBusy : Prop :=
  ∀ (s u : State), s.work.phase = .busy → s.Inv → s.clean →
    (∀ p ∈ [(0, RegName.cmd, 0), (1, RegName.status, 1), (2, RegName.escape, zext32 s.reg.escape),
            (3, RegName.minRun, s.reg.minRun), (4, RegName.width, s.reg.width), (5, RegName.height, s.reg.height),
            (6, RegName.inLen, s.reg.inLen)],
      s.hostNext (.rd p.1) u →
      step s = .next { u with observed := .reg p.2.1 p.2.2 :: u.observed }) ∧
    (∀ o < s.cfg.inCap.val, s.hostNext (.rdb .inBuf o) u →
      step s = .next { u with observed := .byte .inBuf o (s.inBuf.read o) :: u.observed }) ∧
    (∀ p ∈ [(7, RegName.outLen), (8, RegName.errOffset)], s.hostNext (.rd p.1) u →
      step s = .next { u with observed := .reg p.2 (Config.freeWord s.draws) :: u.observed,
                              draws := s.draws.plus 1 }) ∧
    (∀ o < s.cfg.outCap.val, s.hostNext (.rdb .outBuf o) u →
      step s = .next { u with observed := .byte .outBuf o (Config.freeByte s.draws o) :: u.observed,
                              draws := s.draws.plus 1 })

/-- Idle, binding a pixel source changes the binding only; a POLL whose STATUS read shows BUSY = 0 is over,
and one that shows BUSY = 1 goes on (R31, R64, R112). -/
def Obligations.BindAndPollMoves : Prop :=
  ∀ (s u : State),
    (∀ src : PixelSource, s.work.phase = .idle → s.hostNext (.bind src) u →
      step s = .next { u with source := src }) ∧
    (s.hostNext .poll u →
      step s = .next { u with
        observed := .reg .status s.status :: u.observed
        events := if s.work.phase = .busy then .poll :: u.events else u.events })

/-- COPY moves OUT[0 .. OUT_LEN−1] into IN and sets IN_LEN, in one bus transaction a step; the rest of IN, OUT
and every other register stay (R64, R144). -/
def Obligations.CopyMovesOutputToInput : Prop :=
  ∀ (s : State) (rest : List Event), s.work.phase = .idle → s.events = .copy :: rest →
    s.reg.outLen.toNat ≤ s.cfg.inCap.val → s.reg.outLen.toNat ≤ s.cfg.outCap.val →
    ∃ t, reaches (2 * s.reg.outLen.toNat + 2) s t ∧
      (∀ a < s.reg.outLen.toNat, t.inBuf.read a = s.outBuf.read a) ∧
      (∀ a, s.reg.outLen.toNat ≤ a → t.inBuf.read a = s.inBuf.read a) ∧
      t.reg = { s.reg with inLen := s.reg.outLen } ∧
      t = { s with inBuf := t.inBuf, reg := t.reg, events := rest, observed := t.observed }

/-! ### The machine as a whole -/

/-- While IDLE the block has no step: without a host move nothing changes (R116, R138). -/
def Obligations.IdleBlockWaits : Prop :=
  ∀ (s : State), s.work.phase = .idle → s.events = [] → step s = .next s

/-- The block never writes IN, and no internal step changes a parameter, a parameter register, the pixel
source, FAULT or anything of the host's (R29, R47, R127). -/
def Obligations.BlockNeverWritesInput : Prop :=
  ∀ (s u t : State), s.blockNext u → step s = .next t →
    t.inBuf = s.inBuf ∧ (∀ a, t.inBuf.read a = s.inBuf.read a) ∧ t.cfg = s.cfg ∧
    t.reg = { s.reg with result := t.reg.result, outLen := t.reg.outLen, errOffset := t.reg.errOffset } ∧
    t.source = s.source ∧ t.faults = s.faults ∧ t.events = s.events ∧ t.observed = s.observed

/-- The block's step always has a next state (R116), and until the completion nothing of the command is
visible: OUT, OUT_LEN, ERR_OFFSET and RESULT stay while BUSY stays 1 (R44 item 3, R117). -/
def Obligations.NothingVisibleBeforeCompletion : Prop :=
  (∀ (s u : State), s.blockNext u → ∃ t, step s = .next t) ∧
  (∀ (s u t : State), s.blockNext u → step s = .next t → t.work.phase = .busy →
    t.outBuf = s.outBuf ∧ (∀ a, t.outBuf.read a = s.outBuf.read a) ∧ t.reg = s.reg ∧ t.draws = s.draws)

/-- The invariant holds after reset, for every instance and every choice of the parameters. -/
def Obligations.InvariantAfterReset : Prop :=
  (∀ (k : Nat) (c : Config), (State.resetWith k c).Inv) ∧ State.reset.Inv

/-- Every step keeps the invariant: both buffers in canonical form and inside their capacities, the output of
a running command inside OUT_CAP and its cursor inside its input, and with FAULT empty RESULT = NONE while
BUSY, OUT_LEN at most OUT_CAP, and OUT_LEN and ERR_OFFSET 0 where R117 makes them 0 (R17, R23, R24, R26,
R28). -/
def Obligations.EveryStepKeepsInvariant : Prop :=
  ∀ (s t : State), s.Inv → step s = .next t → t.Inv

/-- An instance's step leaves every other instance as it is: they share no state (R13, R136). -/
def Obligations.InstancesShareNothing : Prop :=
  ∀ (k : Nat) (sys sys' : List State), stepInstance k sys = some (.next sys') →
    sys'.length = sys.length ∧ (∀ j, j ≠ k → sys'[j]? = sys[j]?) ∧
    ∃ s t, sys[k]? = some s ∧ step s = .next t ∧ sys'[k]? = some t

/-- Right after reset two instances have different streams: of the instance's own stream, number 0 is drawn
for ESCAPE and the bytes of IN and number 1 for those of OUT, and the next draw is number 2 (R34, R35). In every
step the next draw, and the draw of a buffer whose contents become unspecified, stay in the instance's stream and
never go back in it (R13, R136). That unspecified values have streams is the model's choice (log 1, log 4,
log 20). The values a step puts into registers are not the subject here: ResetAbandonsCommand and ReadsWhileBusy
state some of them. -/
def Obligations.InstancesDrawApart : Prop :=
  (∀ (configs : List Config) (j k : Nat) (s t : State), (resetInstances configs)[j]? = some s →
    (resetInstances configs)[k]? = some t → j ≠ k →
    s.draws.stream ≠ t.draws.stream ∧ s.inBuf.epoch.stream ≠ t.inBuf.epoch.stream ∧
    s.outBuf.epoch.stream ≠ t.outBuf.epoch.stream) ∧
  (∀ (configs : List Config) (k : Nat) (s : State), (resetInstances configs)[k]? = some s →
    s.reg.escape = Config.escReset { stream := k, num := 0 } ∧ s.draws = { stream := k, num := 2 } ∧
    (∀ a, s.inBuf.read a = Config.freeByte { stream := k, num := 0 } a) ∧
    ∀ a, s.outBuf.read a = Config.freeByte { stream := k, num := 1 } a) ∧
  (∀ (s t : State), step s = .next t →
    t.draws.stream = s.draws.stream ∧ s.draws.num ≤ t.draws.num ∧
    (t.inBuf.epoch = s.inBuf.epoch ∨
      t.inBuf.epoch.stream = s.draws.stream ∧ s.draws.num ≤ t.inBuf.epoch.num) ∧
    (t.outBuf.epoch = s.outBuf.epoch ∨
      t.outBuf.epoch.stream = s.draws.stream ∧ s.draws.num ≤ t.outBuf.epoch.num))

/-! ### The three functions (R65, R75, R92) -/

/-- The guarantee (R85): whatever is encoded decodes to itself. -/
def Obligations.DecodeUndoesEncode : Prop :=
  ∀ (data : List Byte) (e : Byte) (m : Word), 2 ≤ m.toNat →
    ∃ stream, Codec.encode data e m = .ok stream ∧ Codec.decode stream e = .ok data

/-- The encoder never emits more than three bytes for one, and the bound is met when every byte is the escape
byte and no run is long enough (R86). -/
def Obligations.EncodedLengthAtMostTriple : Prop :=
  (∀ (data out : List Byte) (e : Byte) (m : Word),
    Codec.encode data e m = .ok out → out.length ≤ 3 * data.length) ∧
  (∀ (n : Nat) (e : Byte) (m : Word), n < m.toNat → 2 ≤ m.toNat →
    ∃ out, Codec.encode (List.replicate n e) e m = .ok out ∧ out.length = 3 * n)

/-- A run of `255·q + r` equal bytes is cut into q Runs of 255 and a remainder, which is one Run if it is at
least m and otherwise r Literals, or r Escaped literals (R82, R86). -/
def Obligations.LongRunIsSplitAt255 : Prop :=
  ∀ (q r : Nat) (v e : Byte) (m : Word), r < 255 → 2 ≤ m.toNat → m.toNat ≤ 255 →
    Codec.encode (List.replicate (255 * q + r) v) e m =
      .ok ((List.replicate q [e, 255, v]).flatten ++
        (if m.toNat ≤ r then [e, BitVec.ofNat 8 r, v]
         else if v = e then (List.replicate r [e, 1, e]).flatten
         else List.replicate r v))

/-- With m above 255 no Run is ever emitted: each byte is a Literal, or an Escaped literal if it is the
escape byte, and the command is legal (R83). -/
def Obligations.MinRunAbove255EmitsNoRun : Prop :=
  ∀ (data : List Byte) (e : Byte) (m : Word), 256 ≤ m.toNat →
    Codec.encode data e m = .ok (data.flatMap fun b => if b = e then [e, 1, e] else [b])

/-- With an escape byte other than 0x00 and data without two adjacent 0x00 bytes, the encoded stream has none;
the two cases of R87 in which it has some, and a third in which only the premise on the escape byte fails. -/
def Obligations.EncoderAddsNoZeroPair : Prop :=
  (∀ (data out : List Byte) (e : Byte) (m : Word), e ≠ 0 → noZeroPair data →
    Codec.encode data e m = .ok out → noZeroPair out) ∧
  Codec.encode [0, 0] 0 4 = .ok [0, 1, 0, 0, 1, 0] ∧
  Codec.encode [0, 0] 5 4 = .ok [0, 0] ∧
  (noZeroPair [0, 5, 5, 5, 5] ∧ Codec.encode [0, 5, 5, 5, 5] 0 4 = .ok [0, 1, 0, 0, 4, 5])

/-- A decoded stream is at most 85 times as long as the stream, and empty input gives empty output (R103). -/
def Obligations.DecodedLengthAtMost85Times : Prop :=
  (∀ (stream out : List Byte) (e : Byte),
    Codec.decode stream e = .ok out → out.length ≤ 85 * stream.length) ∧
  (∀ e : Byte, Codec.decode [] e = .ok [])

/-- The length of a packed image is `H × (W / 8)` exactly, on unbounded numbers (R67). -/
def Obligations.PackedLengthIsExact : Prop :=
  ∀ (w h : Nat) (src : PixelSource) (out : List Byte),
    Codec.pack w h src = .ok out → out.length = h * (w / 8)

/-- Byte `y × (W/8) + g` of a packed image is the sum of R69 for group g of row y, and the pixel at column x of
row y is bit `7 − (x mod 8)` of byte `y × (W/8) + x div 8` (R68, R69). -/
def Obligations.PackedPixelHasItsBit : Prop :=
  ∀ (w h : Nat) (src : PixelSource) (out : List Byte), Codec.pack w h src = .ok out →
    (∀ y < h, ∀ g < w / 8, ∃ byte : Byte, out[y * (w / 8) + g]? = some byte ∧
      byte.toNat = ∑ j ∈ Finset.range 8, (if src.isOn (8 * g + j) y then 2 ^ (7 - j) else 0)) ∧
    (∀ x < w, ∀ y < h, ∃ byte : Byte, out[y * (w / 8) + x / 8]? = some byte ∧
      byte.getLsbD (7 - x % 8) = src.isOn x y)

/-! ### The machine computes the three functions -/

/-- A PACK that passes its checks completes after `H · (W/8) + 2` block steps with the output of Pack on the
bound pixel source (R113, R118); the parameters, IN and FAULT are as before. -/
def Obligations.PackCommandComputesPack : Prop :=
  ∀ (s : State), s.reg.width.toNat % 8 = 0 →
    s.reg.height.toNat * (s.reg.width.toNat / 8) ≤ s.cfg.outCap.val →
    ∃ out t, Codec.pack s.reg.width.toNat s.reg.height.toNat s.source = .ok out ∧
      reaches (s.reg.height.toNat * (s.reg.width.toNat / 8) + 2) (s.justStarted .pack) t ∧
      t.work.phase = .idle ∧ t.completion = Completion.success out ∧ t.inBuf = s.inBuf ∧
      t.faults = s.faults ∧ t.source = s.source ∧
      t.reg = { s.reg with result := .ok, outLen := t.reg.outLen, errOffset := 0 }

/-- An ENCODE that passes its checks completes within `N + 2` block steps: with the output of Encode if it
fits OUT, and with CapacityExceeded if it does not (R88, R114, R118). -/
def Obligations.EncodeCommandComputesEncode : Prop :=
  ∀ (s : State) (out : List Byte), s.reg.inLen.toNat ≤ s.cfg.inCap.val →
    Codec.encode s.input s.reg.escape s.reg.minRun = .ok out →
    ∃ k t, k ≤ s.reg.inLen.toNat + 2 ∧ reaches k (s.justStarted .encode) t ∧ t.work.phase = .idle ∧
      t.inBuf = s.inBuf ∧ t.faults = s.faults ∧
      (out.length ≤ s.cfg.outCap.val → t.completion = Completion.success out) ∧
      (s.cfg.outCap.val < out.length → t.completion = Completion.failure .capacityExceeded 0)

/-- A DECODE of a good stream completes within `N + 2` block steps: with the output of Decode if it fits OUT,
and with CapacityExceeded if it does not (R104, R115, R118). -/
def Obligations.DecodeCommandComputesDecode : Prop :=
  ∀ (s : State) (out : List Byte), s.reg.inLen.toNat ≤ s.cfg.inCap.val →
    Codec.decode s.input s.reg.escape = .ok out →
    ∃ k t, k ≤ s.reg.inLen.toNat + 2 ∧ reaches k (s.justStarted .decode) t ∧ t.work.phase = .idle ∧
      t.inBuf = s.inBuf ∧ t.faults = s.faults ∧
      (out.length ≤ s.cfg.outCap.val → t.completion = Completion.success out) ∧
      (s.cfg.outCap.val < out.length → t.completion = Completion.failure .capacityExceeded 0)

/-- A DECODE of a bad stream completes within `N + 2` block steps and reports the first error in stream order:
where `n` is the offset of the first illegal token and `out` is what the good tokens before it stand for, the
stream's own error with its offset if `out` fits OUT, and otherwise the CapacityExceeded of an earlier token.
It always fits where OUT has 85 bytes for each input byte (R99, R101, R103, R104, R128). -/
def Obligations.DecodeCommandReportsFirstError : Prop :=
  ∀ (s : State) (code : ResultCode) (off : Nat), s.reg.inLen.toNat ≤ s.cfg.inCap.val →
    Codec.decode s.input s.reg.escape = .error (code, off) →
    ∃ n i rest out k t, Codec.decode (s.input.take n) s.reg.escape = .ok out ∧
      decodeToken s.reg.escape (s.input.drop n) = .ok (i, rest) ∧ i.isToken = false ∧
      k ≤ s.reg.inLen.toNat + 2 ∧ reaches k (s.justStarted .decode) t ∧ t.work.phase = .idle ∧
      t.inBuf = s.inBuf ∧ t.faults = s.faults ∧
      (out.length ≤ s.cfg.outCap.val → t.completion = Completion.failure code off) ∧
      (s.cfg.outCap.val < out.length → t.completion = Completion.failure .capacityExceeded 0) ∧
      (85 * s.reg.inLen.toNat ≤ s.cfg.outCap.val → t.completion = Completion.failure code off)

/-- Every command, whatever its parameters and its input, is over after at most `H · (W div 8) + 2` block
steps (PACK) or `N + 2` (ENCODE, DECODE), with a result code other than NONE (R118). -/
def Obligations.EveryCommandTerminates : Prop :=
  ∀ (s : State) (op : Op),
    ∃ k t, k ≤ (if op = .pack then s.reg.height.toNat * (s.reg.width.toNat / 8) + 2
                else s.reg.inLen.toNat + 2) ∧
      reaches k (s.justStarted op) t ∧ t.work.phase = .idle ∧ t.reg.result ≠ .none
end

