-- ==== Sys2Proof/Laws/Memory.lean ====
section
/-!
SUPPORT. The buffers: a read after a write, the canonical form that every operation keeps, and the bytes a
completion leaves.
-/
namespace Sys2Proof.Machine

theorem lookup_insert_same (cs : List Host.Cell) (a : Nat) (b : Byte) :
    cellsLookup (cellsInsert cs a b) a = some b := by
  induction cs with
  | nil => simp [cellsInsert, cellsLookup]
  | cons c cs ih =>
    obtain ⟨k, v⟩ := c
    unfold cellsInsert
    split
    · simp [cellsLookup]
    · split
      · simp [cellsLookup]
      · rename_i h
        simp [cellsLookup, Ne.symm h, ih]

theorem lookup_insert_other (cs : List Host.Cell) {a k : Nat} (b : Byte) (h : k ≠ a) :
    cellsLookup (cellsInsert cs a b) k = cellsLookup cs k := by
  induction cs with
  | nil => simp [cellsInsert, cellsLookup, h.symm]
  | cons c cs ih =>
    obtain ⟨j, v⟩ := c
    unfold cellsInsert
    split
    · simp [cellsLookup, h.symm]
    · split
      · rename_i ha
        subst ha
        simp [cellsLookup, h.symm]
      · simp [cellsLookup, ih]

/-- A read after a write to the same offset gives the value written. -/
@[simp] theorem Memory.read_write_same (m : Memory) (a : Nat) (b : Byte) : (m.write a b).read a = b := by
  simp [Memory.write, Memory.read, lookup_insert_same]

/-- A write leaves every other offset alone. -/
theorem Memory.read_write_other (m : Memory) {a k : Nat} (b : Byte) (h : k ≠ a) :
    (m.write a b).read k = m.read k := by
  simp [Memory.write, Memory.read, lookup_insert_other _ _ h]

theorem mem_insert {cs : List Host.Cell} {a : Nat} {b : Byte} {p : Host.Cell}
    (h : p ∈ cellsInsert cs a b) : p = (a, b) ∨ p ∈ cs := by
  induction cs with
  | nil => simpa [cellsInsert] using h
  | cons c cs ih =>
    obtain ⟨k, v⟩ := c
    unfold cellsInsert at h
    split at h
    · simpa using h
    · split at h
      · rcases List.mem_cons.1 h with h | h
        · exact .inl h
        · exact .inr (List.mem_cons_of_mem _ h)
      · rcases List.mem_cons.1 h with h | h
        · exact .inr (h ▸ List.mem_cons_self)
        · exact (ih h).imp id (List.mem_cons_of_mem _)

/-- A write keeps the canonical form. -/
theorem Memory.write_wf {m : Memory} (h : m.wf) (a : Nat) (b : Byte) : (m.write a b).wf := by
  obtain ⟨cs, e⟩ := m
  simp only [Memory.wf, Memory.write] at h ⊢
  induction cs with
  | nil => simp [cellsInsert]
  | cons c cs ih =>
    obtain ⟨k, v⟩ := c
    obtain ⟨hk, hcs⟩ := List.pairwise_cons.1 h
    unfold cellsInsert
    split
    · rename_i hlt
      refine List.pairwise_cons.2 ⟨fun p hp => ?_, h⟩
      rcases List.mem_cons.1 hp with rfl | hp
      · exact hlt
      · exact lt_trans hlt (hk p hp)
    · split
      · rename_i hle heq
        subst heq
        exact List.pairwise_cons.2 ⟨hk, hcs⟩
      · refine List.pairwise_cons.2 ⟨fun p hp => ?_, ih hcs⟩
        rcases mem_insert hp with rfl | hp
        · omega
        · exact hk p hp

/-- A write in range lists nothing out of range. -/
theorem Memory.write_below {m : Memory} {cap a : Nat} (h : m.below cap) (ha : a < cap) (b : Byte) :
    (m.write a b).below cap := by
  intro p hp
  rcases mem_insert hp with rfl | hp
  · exact ha
  · exact h p hp

@[simp] theorem Memory.unspecified_wf (d : Draw) : (Memory.unspecified d).wf := List.Pairwise.nil

@[simp] theorem Memory.unspecified_below (d : Draw) (cap : Nat) : (Memory.unspecified d).below cap := by
  intro p hp
  cases hp

@[simp] theorem Memory.unspecified_read (d : Draw) (a : Nat) :
    (Memory.unspecified d).read a = Config.freeByte d a := rfl

theorem mem_cellsFrom {bs : List Byte} {o : Nat} {p : Host.Cell} (h : p ∈ cellsFrom o bs) :
    o ≤ p.1 ∧ p.1 < o + bs.length := by
  induction bs generalizing o with
  | nil => cases h
  | cons b bs ih =>
    rcases List.mem_cons.1 h with rfl | h
    · simp
    · have := ih h
      simp only [List.length_cons]
      omega

theorem cellsFrom_pairwise (bs : List Byte) (o : Nat) :
    (cellsFrom o bs).Pairwise fun p q => p.1 < q.1 := by
  induction bs generalizing o with
  | nil => exact List.Pairwise.nil
  | cons b bs ih =>
    refine List.pairwise_cons.2 ⟨fun p hp => ?_, ih _⟩
    have := mem_cellsFrom hp
    simp only
    omega

/-- The bytes of a completion are in canonical form. -/
@[simp] theorem Memory.ofBytes_wf (bs : List Byte) (d : Draw) : (Memory.ofBytes bs d).wf :=
  cellsFrom_pairwise bs 0

theorem Memory.ofBytes_below {bs : List Byte} {cap : Nat} (h : bs.length ≤ cap) (d : Draw) :
    (Memory.ofBytes bs d).below cap := by
  intro p hp
  have := mem_cellsFrom hp
  omega

theorem lookup_cellsFrom (bs : List Byte) (o a : Nat) :
    cellsLookup (cellsFrom o bs) a = if o ≤ a then bs[a - o]? else none := by
  induction bs generalizing o with
  | nil => simp [cellsFrom, cellsLookup]
  | cons b bs ih =>
    simp only [cellsFrom, cellsLookup, ih]
    by_cases h : o = a
    · subst h
      simp
    · by_cases h' : o ≤ a
      · have h1 : o + 1 ≤ a := by omega
        have h2 : a - o = (a - (o + 1)) + 1 := by omega
        simp [h, h', h1, h2]
      · have h1 : ¬ o + 1 ≤ a := by omega
        simp [h, h', h1]

/-- What a read of OUT answers after a completion with output `bs`. -/
theorem Memory.read_ofBytes (bs : List Byte) (d : Draw) (a : Nat) :
    (Memory.ofBytes bs d).read a = (bs[a]?).getD (Config.freeByte d a) := by
  simp only [Memory.read, Memory.ofBytes, lookup_cellsFrom, Nat.zero_le, if_true, Nat.sub_zero]
  cases bs[a]? <;> rfl

/-- The bytes a completion leaves are the output. -/
theorem Memory.bytes_ofBytes (bs : List Byte) (d : Draw) :
    (Memory.ofBytes bs d).bytes 0 bs.length = bs := by
  apply List.ext_getElem
  · simp [Memory.bytes]
  · intro i h1 h2
    simp [Memory.bytes, Memory.read_ofBytes, h2]

@[simp] theorem Memory.bytes_length (m : Memory) (o k : Nat) : (m.bytes o k).length = k := by
  simp [Memory.bytes]

theorem Memory.storeBytes_wf {m : Memory} (h : m.wf) (o : Nat) (bs : List Byte) :
    (m.storeBytes o bs).wf := by
  induction bs generalizing m o with
  | nil => exact h
  | cons b bs ih => exact ih (Memory.write_wf h o b) (o + 1)

theorem completionOut_wf (spoiled : Bool) (code : ResultCode) (acc : List Byte) (d : Draw) :
    (completionOut spoiled code acc d).wf := by
  unfold completionOut
  split <;> simp

/-- Both buffers have the canonical form after reset. -/
theorem reset_buffersOk (k : Nat) (c : Config) : (State.resetWith k c).buffersOk :=
  ⟨List.Pairwise.nil, List.Pairwise.nil, fun _ h => (by cases h), fun _ h => (by cases h)⟩

end Sys2Proof.Machine
end

