-- ==== Sys2Proof/Laws/State.lean ====
section
/-!
SUPPORT. One lemma for each field of the state after each named update, all true by `rfl`, so that no proof
unfolds a record update.
-/
namespace Sys2Proof

/-! ### `Draw.plus` -/

@[simp] theorem Draw.plus_stream (d : Draw) (k : Nat) : (d.plus k).stream = d.stream := rfl
@[simp] theorem Draw.plus_num (d : Draw) (k : Nat) : (d.plus k).num = d.num + k := rfl

end Sys2Proof

namespace Sys2Proof.Machine

/-! ### `State.complete` -/

@[simp] theorem State.complete_cfg (code : ResultCode) (off : Nat) (s : State) :
    (s.complete code off).cfg = s.cfg := rfl
@[simp] theorem State.complete_reg (code : ResultCode) (off : Nat) (s : State) :
    (s.complete code off).reg = completionRegisters s.spoiled code off s.work.acc.length s.draws s.reg := rfl
@[simp] theorem State.complete_inBuf (code : ResultCode) (off : Nat) (s : State) :
    (s.complete code off).inBuf = s.inBuf := rfl
@[simp] theorem State.complete_outBuf (code : ResultCode) (off : Nat) (s : State) :
    (s.complete code off).outBuf = completionOut s.spoiled code s.work.acc s.draws := rfl
@[simp] theorem State.complete_work (code : ResultCode) (off : Nat) (s : State) :
    (s.complete code off).work = { s.work with phase := .idle, acc := [] } := rfl
@[simp] theorem State.complete_faults (code : ResultCode) (off : Nat) (s : State) :
    (s.complete code off).faults = s.faults := rfl
@[simp] theorem State.complete_source (code : ResultCode) (off : Nat) (s : State) :
    (s.complete code off).source = s.source := rfl
@[simp] theorem State.complete_events (code : ResultCode) (off : Nat) (s : State) :
    (s.complete code off).events = s.events := rfl
@[simp] theorem State.complete_sched (code : ResultCode) (off : Nat) (s : State) :
    (s.complete code off).sched = s.sched := rfl
@[simp] theorem State.complete_observed (code : ResultCode) (off : Nat) (s : State) :
    (s.complete code off).observed = s.observed := rfl
@[simp] theorem State.complete_draws (code : ResultCode) (off : Nat) (s : State) :
    (s.complete code off).draws = s.draws.plus 2 := rfl
@[simp] theorem State.complete_spoiled (code : ResultCode) (off : Nat) (s : State) :
    (s.complete code off).spoiled = false := rfl

/-! ### `State.raise` -/

@[simp] theorem State.raise_cfg (code : ResultCode) (off : Nat) (s : State) :
    (s.raise code off).cfg = s.cfg := rfl
@[simp] theorem State.raise_reg (code : ResultCode) (off : Nat) (s : State) :
    (s.raise code off).reg = completionRegisters s.spoiled code off s.work.acc.length s.draws s.reg := rfl
@[simp] theorem State.raise_inBuf (code : ResultCode) (off : Nat) (s : State) :
    (s.raise code off).inBuf = s.inBuf := rfl
@[simp] theorem State.raise_outBuf (code : ResultCode) (off : Nat) (s : State) :
    (s.raise code off).outBuf = completionOut s.spoiled code s.work.acc s.draws := rfl
@[simp] theorem State.raise_work (code : ResultCode) (off : Nat) (s : State) :
    (s.raise code off).work = { s.work with phase := .idle, acc := [], err := some (code, off) } := rfl
@[simp] theorem State.raise_faults (code : ResultCode) (off : Nat) (s : State) :
    (s.raise code off).faults = s.faults := rfl
@[simp] theorem State.raise_source (code : ResultCode) (off : Nat) (s : State) :
    (s.raise code off).source = s.source := rfl
@[simp] theorem State.raise_events (code : ResultCode) (off : Nat) (s : State) :
    (s.raise code off).events = s.events := rfl
@[simp] theorem State.raise_sched (code : ResultCode) (off : Nat) (s : State) :
    (s.raise code off).sched = s.sched := rfl
@[simp] theorem State.raise_observed (code : ResultCode) (off : Nat) (s : State) :
    (s.raise code off).observed = s.observed := rfl
@[simp] theorem State.raise_draws (code : ResultCode) (off : Nat) (s : State) :
    (s.raise code off).draws = s.draws.plus 2 := rfl
@[simp] theorem State.raise_spoiled (code : ResultCode) (off : Nat) (s : State) :
    (s.raise code off).spoiled = false := rfl

/-! ### `State.start` -/

@[simp] theorem State.start_cfg (op : Op) (s : State) : (s.start op).cfg = s.cfg := rfl
@[simp] theorem State.start_reg (op : Op) (s : State) :
    (s.start op).reg = { s.reg with result := .none } := rfl
@[simp] theorem State.start_inBuf (op : Op) (s : State) : (s.start op).inBuf = s.inBuf := rfl
@[simp] theorem State.start_outBuf (op : Op) (s : State) : (s.start op).outBuf = s.outBuf := rfl
@[simp] theorem State.start_work (op : Op) (s : State) :
    (s.start op).work = Working.started op s.reg s.source s.work := rfl
@[simp] theorem State.start_faults (op : Op) (s : State) : (s.start op).faults = s.faults := rfl
@[simp] theorem State.start_source (op : Op) (s : State) : (s.start op).source = s.source := rfl
@[simp] theorem State.start_events (op : Op) (s : State) : (s.start op).events = s.events := rfl
@[simp] theorem State.start_sched (op : Op) (s : State) : (s.start op).sched = s.sched := rfl
@[simp] theorem State.start_observed (op : Op) (s : State) : (s.start op).observed = s.observed := rfl
@[simp] theorem State.start_draws (op : Op) (s : State) : (s.start op).draws = s.draws := rfl
@[simp] theorem State.start_spoiled (op : Op) (s : State) : (s.start op).spoiled = false := rfl

/-! ### `State.emitPacked` -/

@[simp] theorem State.emitPacked_cfg (b : Byte) (s : State) : (s.emitPacked b).cfg = s.cfg := rfl
@[simp] theorem State.emitPacked_reg (b : Byte) (s : State) : (s.emitPacked b).reg = s.reg := rfl
@[simp] theorem State.emitPacked_inBuf (b : Byte) (s : State) : (s.emitPacked b).inBuf = s.inBuf := rfl
@[simp] theorem State.emitPacked_outBuf (b : Byte) (s : State) : (s.emitPacked b).outBuf = s.outBuf := rfl
@[simp] theorem State.emitPacked_work (b : Byte) (s : State) :
    (s.emitPacked b).work = { s.work.nextGroup with acc := s.work.acc ++ [b] } := rfl
@[simp] theorem State.emitPacked_faults (b : Byte) (s : State) : (s.emitPacked b).faults = s.faults := rfl
@[simp] theorem State.emitPacked_source (b : Byte) (s : State) : (s.emitPacked b).source = s.source := rfl
@[simp] theorem State.emitPacked_events (b : Byte) (s : State) : (s.emitPacked b).events = s.events := rfl
@[simp] theorem State.emitPacked_sched (b : Byte) (s : State) : (s.emitPacked b).sched = s.sched := rfl
@[simp] theorem State.emitPacked_observed (b : Byte) (s : State) :
    (s.emitPacked b).observed = s.observed := rfl
@[simp] theorem State.emitPacked_draws (b : Byte) (s : State) : (s.emitPacked b).draws = s.draws := rfl
@[simp] theorem State.emitPacked_spoiled (b : Byte) (s : State) :
    (s.emitPacked b).spoiled = s.spoiled := rfl

/-! ### `State.pass` -/

@[simp] theorem State.pass_cfg (s : State) : (s.pass).cfg = s.cfg := rfl
@[simp] theorem State.pass_reg (s : State) : (s.pass).reg = s.reg := rfl
@[simp] theorem State.pass_inBuf (s : State) : (s.pass).inBuf = s.inBuf := rfl
@[simp] theorem State.pass_outBuf (s : State) : (s.pass).outBuf = s.outBuf := rfl
@[simp] theorem State.pass_work (s : State) : (s.pass).work = { s.work with checked := true } := rfl
@[simp] theorem State.pass_faults (s : State) : (s.pass).faults = s.faults := rfl
@[simp] theorem State.pass_source (s : State) : (s.pass).source = s.source := rfl
@[simp] theorem State.pass_events (s : State) : (s.pass).events = s.events := rfl
@[simp] theorem State.pass_sched (s : State) : (s.pass).sched = s.sched := rfl
@[simp] theorem State.pass_observed (s : State) : (s.pass).observed = s.observed := rfl
@[simp] theorem State.pass_draws (s : State) : (s.pass).draws = s.draws := rfl
@[simp] theorem State.pass_spoiled (s : State) : (s.pass).spoiled = s.spoiled := rfl

/-! ### `State.observe` -/

@[simp] theorem State.observe_cfg (o : Observation) (s : State) : (s.observe o).cfg = s.cfg := rfl
@[simp] theorem State.observe_reg (o : Observation) (s : State) : (s.observe o).reg = s.reg := rfl
@[simp] theorem State.observe_inBuf (o : Observation) (s : State) : (s.observe o).inBuf = s.inBuf := rfl
@[simp] theorem State.observe_outBuf (o : Observation) (s : State) : (s.observe o).outBuf = s.outBuf := rfl
@[simp] theorem State.observe_work (o : Observation) (s : State) : (s.observe o).work = s.work := rfl
@[simp] theorem State.observe_faults (o : Observation) (s : State) : (s.observe o).faults = s.faults := rfl
@[simp] theorem State.observe_source (o : Observation) (s : State) : (s.observe o).source = s.source := rfl
@[simp] theorem State.observe_events (o : Observation) (s : State) : (s.observe o).events = s.events := rfl
@[simp] theorem State.observe_sched (o : Observation) (s : State) : (s.observe o).sched = s.sched := rfl
@[simp] theorem State.observe_observed (o : Observation) (s : State) :
    (s.observe o).observed = o :: s.observed := rfl
@[simp] theorem State.observe_draws (o : Observation) (s : State) : (s.observe o).draws = s.draws := rfl
@[simp] theorem State.observe_spoiled (o : Observation) (s : State) :
    (s.observe o).spoiled = s.spoiled := rfl

/-! ### `State.push` -/

@[simp] theorem State.push_cfg (evs : List Event) (s : State) : (s.push evs).cfg = s.cfg := rfl
@[simp] theorem State.push_reg (evs : List Event) (s : State) : (s.push evs).reg = s.reg := rfl
@[simp] theorem State.push_inBuf (evs : List Event) (s : State) : (s.push evs).inBuf = s.inBuf := rfl
@[simp] theorem State.push_outBuf (evs : List Event) (s : State) : (s.push evs).outBuf = s.outBuf := rfl
@[simp] theorem State.push_work (evs : List Event) (s : State) : (s.push evs).work = s.work := rfl
@[simp] theorem State.push_faults (evs : List Event) (s : State) : (s.push evs).faults = s.faults := rfl
@[simp] theorem State.push_source (evs : List Event) (s : State) : (s.push evs).source = s.source := rfl
@[simp] theorem State.push_events (evs : List Event) (s : State) :
    (s.push evs).events = evs ++ s.events := rfl
@[simp] theorem State.push_sched (evs : List Event) (s : State) : (s.push evs).sched = s.sched := rfl
@[simp] theorem State.push_observed (evs : List Event) (s : State) :
    (s.push evs).observed = s.observed := rfl
@[simp] theorem State.push_draws (evs : List Event) (s : State) : (s.push evs).draws = s.draws := rfl
@[simp] theorem State.push_spoiled (evs : List Event) (s : State) : (s.push evs).spoiled = s.spoiled := rfl

/-! ### `State.hazard` -/

@[simp] theorem State.hazard_cfg (h : Hazard) (s : State) : (s.hazard h).cfg = s.cfg := rfl
@[simp] theorem State.hazard_reg (h : Hazard) (s : State) :
    (s.hazard h).reg =
      { result := ResultCode.ofNumber (Config.freeCode s.draws)
        escape := (Config.freeWord s.draws).setWidth 8, minRun := Config.freeWord (s.draws.plus 1)
        width := Config.freeWord (s.draws.plus 2), height := Config.freeWord (s.draws.plus 3)
        inLen := Config.freeWord (s.draws.plus 4), outLen := Config.freeWord (s.draws.plus 5)
        errOffset := Config.freeWord (s.draws.plus 6) } := rfl
@[simp] theorem State.hazard_inBuf (h : Hazard) (s : State) : (s.hazard h).inBuf = s.inBuf := rfl
@[simp] theorem State.hazard_outBuf (h : Hazard) (s : State) :
    (s.hazard h).outBuf = Memory.unspecified s.draws := rfl
@[simp] theorem State.hazard_work (h : Hazard) (s : State) :
    (s.hazard h).work = { s.work with phase := if Config.freeBool s.draws then .busy else .idle } := rfl
@[simp] theorem State.hazard_faults (h : Hazard) (s : State) : (s.hazard h).faults = s.faults ++ [h] := rfl
@[simp] theorem State.hazard_source (h : Hazard) (s : State) : (s.hazard h).source = s.source := rfl
@[simp] theorem State.hazard_events (h : Hazard) (s : State) : (s.hazard h).events = s.events := rfl
@[simp] theorem State.hazard_sched (h : Hazard) (s : State) : (s.hazard h).sched = s.sched := rfl
@[simp] theorem State.hazard_observed (h : Hazard) (s : State) : (s.hazard h).observed = s.observed := rfl
@[simp] theorem State.hazard_draws (h : Hazard) (s : State) : (s.hazard h).draws = s.draws.plus 7 := rfl
@[simp] theorem State.hazard_spoiled (h : Hazard) (s : State) :
    (s.hazard h).spoiled = Config.freeBool s.draws := rfl

/-! ### `State.resetNow` -/

@[simp] theorem State.resetNow_cfg (s : State) : (s.resetNow).cfg = s.cfg := rfl
@[simp] theorem State.resetNow_reg (s : State) : (s.resetNow).reg = Registers.afterReset s.draws := rfl
@[simp] theorem State.resetNow_inBuf (s : State) : (s.resetNow).inBuf = Memory.unspecified s.draws := rfl
@[simp] theorem State.resetNow_outBuf (s : State) :
    (s.resetNow).outBuf = Memory.unspecified (s.draws.plus 1) := rfl
@[simp] theorem State.resetNow_work (s : State) : (s.resetNow).work = Working.afterReset := rfl
@[simp] theorem State.resetNow_faults (s : State) : (s.resetNow).faults = s.faults := rfl
@[simp] theorem State.resetNow_source (s : State) : (s.resetNow).source = s.source := rfl
@[simp] theorem State.resetNow_events (s : State) : (s.resetNow).events = s.events := rfl
@[simp] theorem State.resetNow_sched (s : State) : (s.resetNow).sched = s.sched := rfl
@[simp] theorem State.resetNow_observed (s : State) : (s.resetNow).observed = s.observed := rfl
@[simp] theorem State.resetNow_draws (s : State) : (s.resetNow).draws = s.draws.plus 2 := rfl
@[simp] theorem State.resetNow_spoiled (s : State) : (s.resetNow).spoiled = false := rfl

/-! ### `State.store` -/

@[simp] theorem State.store_cfg (s : State) (b : Buf) (o : Nat) (v : Byte) : (s.store b o v).cfg = s.cfg := by
  cases b <;> rfl
@[simp] theorem State.store_reg (s : State) (b : Buf) (o : Nat) (v : Byte) : (s.store b o v).reg = s.reg := by
  cases b <;> rfl
@[simp] theorem State.store_work (s : State) (b : Buf) (o : Nat) (v : Byte) : (s.store b o v).work = s.work := by
  cases b <;> rfl
@[simp] theorem State.store_faults (s : State) (b : Buf) (o : Nat) (v : Byte) : (s.store b o v).faults = s.faults := by
  cases b <;> rfl
@[simp] theorem State.store_source (s : State) (b : Buf) (o : Nat) (v : Byte) : (s.store b o v).source = s.source := by
  cases b <;> rfl
@[simp] theorem State.store_events (s : State) (b : Buf) (o : Nat) (v : Byte) : (s.store b o v).events = s.events := by
  cases b <;> rfl
@[simp] theorem State.store_sched (s : State) (b : Buf) (o : Nat) (v : Byte) : (s.store b o v).sched = s.sched := by
  cases b <;> rfl
@[simp] theorem State.store_observed (s : State) (b : Buf) (o : Nat) (v : Byte) : (s.store b o v).observed = s.observed := by
  cases b <;> rfl
@[simp] theorem State.store_draws (s : State) (b : Buf) (o : Nat) (v : Byte) : (s.store b o v).draws = s.draws := by
  cases b <;> rfl
@[simp] theorem State.store_spoiled (s : State) (b : Buf) (o : Nat) (v : Byte) : (s.store b o v).spoiled = s.spoiled := by
  cases b <;> rfl
@[simp] theorem State.store_buf_same (s : State) (b : Buf) (o : Nat) (v : Byte) :
    (s.store b o v).buf b = (s.buf b).write o v := by
  cases b <;> rfl
theorem State.store_buf_other (s : State) {b c : Buf} (o : Nat) (v : Byte) (h : c ≠ b) :
    (s.store b o v).buf c = s.buf c := by
  cases b <;> cases c <;> first | rfl | exact absurd rfl h

end Sys2Proof.Machine
end

