-- ==== Sys2Proof/Laws/Ops.lean ====
section
/-!
SUPPORT. For each shared operation one lemma that says everything it can do: completing, raising an error,
appending output, the start checks, and the reads of the host.
-/
namespace Sys2Proof.Machine

/-! ### Completion -/

theorem completionRegisters_ok (off n : Nat) (d : Draw) (r : Registers) :
    completionRegisters false .ok off n d r =
      { r with result := .ok, outLen := BitVec.ofNat 32 n, errOffset := 0 } := by
  simp [completionRegisters]

theorem completionRegisters_error {code : ResultCode} (h : code ≠ .ok) (off n : Nat) (d : Draw) (r : Registers) :
    completionRegisters false code off n d r =
      { r with result := code, outLen := 0, errOffset := BitVec.ofNat 32 off } := by
  simp [completionRegisters, h]

/-- A completion writes only the three result registers. -/
theorem completionRegisters_frame (spoiled : Bool) (code : ResultCode) (off n : Nat) (d : Draw) (r : Registers) :
    completionRegisters spoiled code off n d r =
      { r with
        result := (completionRegisters spoiled code off n d r).result
        outLen := (completionRegisters spoiled code off n d r).outLen
        errOffset := (completionRegisters spoiled code off n d r).errOffset } := by
  unfold completionRegisters
  split
  · rfl
  · split <;> rfl

theorem completionOut_ok (acc : List Byte) (d : Draw) :
    completionOut false .ok acc d = Memory.ofBytes acc d := by
  simp [completionOut]

theorem completionOut_error {code : ResultCode} (h : code ≠ .ok) (spoiled : Bool) (acc : List Byte)
    (d : Draw) : completionOut spoiled code acc d = Memory.unspecified d := by
  simp [completionOut, h]

theorem complete_sameButResult (code : ResultCode) (off : Nat) (s : State) :
    s.sameButResult (s.complete code off) :=
  ⟨rfl, rfl, fun _ => rfl, rfl, rfl, rfl, rfl, rfl, completionRegisters_frame _ _ _ _ _ _, rfl⟩

theorem raise_sameButResult (code : ResultCode) (off : Nat) (s : State) :
    s.sameButResult (s.raise code off) :=
  ⟨rfl, rfl, fun _ => rfl, rfl, rfl, rfl, rfl, rfl, completionRegisters_frame _ _ _ _ _ _, rfl⟩

/-- Everything a raised error leaves (R129), no hazard having spoiled the command. -/
theorem raise_failsWith {s : State} {code : ResultCode} (hs : s.spoiled = false) (hc : code ≠ .ok)
    (off : Nat) : s.failsWith (s.raise code off) code off := by
  refine ⟨?_, ?_, fun a => ?_, rfl, raise_sameButResult _ _ _⟩
  · simp [State.completion, Completion.failure, Memory.bytes, completionRegisters_error, hs, hc]
  · simp [State.status, completionRegisters_error, hs, hc]
  · simp [completionOut_error hc]

/-- Everything a successful completion leaves (R117), no hazard having spoiled the command. -/
theorem complete_succeedsWith {s : State} (hs : s.spoiled = false)
    (hl : s.work.acc.length ≤ s.cfg.outCap.val) (off : Nat) :
    s.succeedsWith (s.complete .ok off) s.work.acc := by
  have hlt : s.work.acc.length < 2 ^ 32 := lt_of_le_of_lt hl s.cfg.outCap.isLt
  refine ⟨?_, ?_, fun a ha => ?_, rfl, complete_sameButResult _ _ _⟩
  · simp only [State.completion, Completion.success, State.complete_reg, State.complete_outBuf, hs,
      completionRegisters_ok, completionOut_ok, BitVec.toNat_ofNat, Nat.mod_eq_of_lt hlt,
      Memory.bytes_ofBytes]
  · simp [State.status, hs, completionRegisters_ok]
  · simp [hs, completionOut_ok, Memory.read_ofBytes, ha]

/-! ### Appending output -/

/-- With room, output is appended and the cursor moves on; nothing else changes. -/
theorem emit_room {s : State} {out : List Byte} (h : s.work.acc.length + out.length ≤ s.cfg.outCap.val)
    (k : Nat) :
    s.emit out k = { s with work := { s.work with acc := s.work.acc ++ out, pc := s.work.pc + k } } := by
  simp [State.emit, Nat.not_lt.2 h]

/-- Without room, CapacityExceeded is raised before anything is appended. -/
theorem emit_full {s : State} {out : List Byte} (h : s.cfg.outCap.val < s.work.acc.length + out.length)
    (k : Nat) : s.emit out k = s.raise .capacityExceeded 0 := by
  simp [State.emit, h]

/-- The two things `State.emit` can do. -/
theorem emit_cases (s : State) (out : List Byte) (k : Nat) :
    (s.work.acc.length + out.length ≤ s.cfg.outCap.val ∧
      s.emit out k = { s with work := { s.work with acc := s.work.acc ++ out, pc := s.work.pc + k } }) ∨
    (s.cfg.outCap.val < s.work.acc.length + out.length ∧ s.emit out k = s.raise .capacityExceeded 0) := by
  rcases Nat.lt_or_ge s.cfg.outCap.val (s.work.acc.length + out.length) with h | h
  · exact .inr ⟨h, emit_full h k⟩
  · exact .inl ⟨h, emit_room h k⟩

/-- The PACK cursor after a byte: the next group, or the start of the next row. -/
theorem nextGroup_cases (k : Working) :
    (k.g + 1 = k.w.toNat / 8 ∧ k.nextGroup = { k with g := 0, y := k.y + 1 }) ∨
    (k.g + 1 ≠ k.w.toNat / 8 ∧ k.nextGroup = { k with g := k.g + 1 }) := by
  unfold Working.nextGroup
  split
  · exact .inl ⟨‹_›, rfl⟩
  · exact .inr ⟨‹_›, rfl⟩

/-! ### Start checks -/

/-- The start checks raise one error or pass. -/
theorem startChecks_cases (s : State) :
    s.startChecks = s.pass ∨
    ∃ code, (code = .invalidDimensions ∨ code = .invalidParameter ∨ code = .capacityExceeded) ∧
      s.startChecks = s.raise code 0 := by
  unfold State.startChecks
  split
  · split
    · exact .inr ⟨_, .inl rfl, rfl⟩
    · split
      · exact .inr ⟨_, .inr (.inr rfl), rfl⟩
      · exact .inl rfl
  · split
    · exact .inr ⟨_, .inr (.inl rfl), rfl⟩
    · split
      · exact .inr ⟨_, .inr (.inr rfl), rfl⟩
      · exact .inl rfl
  · split
    · exact .inr ⟨_, .inr (.inr rfl), rfl⟩
    · exact .inl rfl

/-! ### Host reads and hazards -/

/-- A register read changes at most the supply of free values. -/
theorem readReg_frame (r : RegName) (s : State) :
    (s.readReg r).2 = s ∨ (s.readReg r).2 = { s with draws := s.draws.plus 1 } := by
  by_cases h : s.work.phase = .busy <;> cases r <;> simp [State.readReg, State.drawWord, h]

/-- Idle, a register read changes nothing. -/
theorem readReg_idle {s : State} (h : s.work.phase = .idle) (r : RegName) : (s.readReg r).2 = s := by
  cases r <;> simp [State.readReg, h]

/-- A byte read changes at most the supply of free values. -/
theorem readByte_frame (b : Buf) (o : Nat) (s : State) :
    (s.readByte b o).2 = s ∨ (s.readByte b o).2 = { s with draws := s.draws.plus 1 } := by
  unfold State.readByte
  split
  · exact .inr rfl
  · exact .inl rfl

/-- The two things a buffer hazard can do: the hazard alone, or the hazard and a free value for the byte. -/
theorem bufferHazard_cases (b : Buf) (o : Nat) (s : State) :
    (s.cap b ≤ o ∧ s.bufferHazard b o = s.hazard (.bufferWrite b)) ∨
    (o < s.cap b ∧ s.bufferHazard b o =
      { (s.hazard (.bufferWrite b)).store b o (Config.freeByte (s.draws.plus 7) o) with
        draws := (s.draws.plus 7).plus 1 }) := by
  rcases Nat.lt_or_ge o (s.cap b) with h | h
  · exact .inr ⟨h, by simp [State.bufferHazard, h]⟩
  · exact .inl ⟨h, by simp [State.bufferHazard, Nat.not_lt.2 h]⟩

/-- A hazard on a buffer records itself in FAULT. -/
@[simp] theorem bufferHazard_faults (b : Buf) (o : Nat) (s : State) :
    (s.bufferHazard b o).faults = s.faults ++ [.bufferWrite b] := by
  unfold State.bufferHazard
  split <;> simp

/-- A hazard on the pixel source binding records itself in FAULT. -/
@[simp] theorem bindingHazard_faults (s : State) :
    s.bindingHazard.faults = s.faults ++ [.pixelBinding] := rfl

end Sys2Proof.Machine
end

