-- ==== Sys2Proof/Laws/PerInstr.lean ====
section
/-!
SUPPORT. The per-instruction family `RowLength`: the encoding of an instruction has the format and the length
of its row (30_encoding.md R49, R52).
-/
namespace Sys2Proof.Laws

/-- The bytes of an encoded item; a command word has four. -/
def codeBytes : Code → Nat
  | .command _ => 4
  | .stream bs => bs.length
  | .packed _ => 1

/-- The bytes R49 gives the row of an instruction. -/
def rowBytes : Instr → Nat
  | .pack => 4
  | .encode => 4
  | .decode => 4
  | .illegalCmdOp0 _ => 4
  | .illegalCmdRsvd _ _ => 4
  | .pixel8 _ _ _ _ _ _ _ _ => 1
  | .lit _ => 1
  | .run _ _ _ => 3
  | .esc _ => 3
  | .illegalEscValue _ _ => 3
  | .illegalCount0 _ => 2
  | .truncCount _ => 1
  | .truncValue _ _ => 2

/-- The encoding of the instruction has its row's length. -/
def RowLength.Statement (i : Instr) : Prop := codeBytes (Sys2Proof.encode i) = rowBytes i

theorem RowLength.pack : RowLength.Statement .pack := rfl
theorem RowLength.encode : RowLength.Statement .encode := rfl
theorem RowLength.decode : RowLength.Statement .decode := rfl
theorem RowLength.illegalCmdOp0 (r : BitVec 30) : RowLength.Statement (.illegalCmdOp0 r) := rfl
theorem RowLength.illegalCmdRsvd (r : BitVec 30) (op : BitVec 2) :
    RowLength.Statement (.illegalCmdRsvd r op) := rfl
theorem RowLength.pixel8 (a b c d e f g h : Bool) :
    RowLength.Statement (.pixel8 a b c d e f g h) := rfl
theorem RowLength.lit (b : Byte) : RowLength.Statement (.lit b) := rfl
theorem RowLength.run (e n v : Byte) : RowLength.Statement (.run e n v) := rfl
theorem RowLength.esc (e : Byte) : RowLength.Statement (.esc e) := rfl
theorem RowLength.illegalEscValue (e v : Byte) : RowLength.Statement (.illegalEscValue e v) := rfl
theorem RowLength.illegalCount0 (e : Byte) : RowLength.Statement (.illegalCount0 e) := rfl
theorem RowLength.truncCount (e : Byte) : RowLength.Statement (.truncCount e) := rfl
theorem RowLength.truncValue (e c : Byte) : RowLength.Statement (.truncValue e c) := rfl

end Sys2Proof.Laws
end

