-- ==== Sys2Proof/Laws/Step.lean ====
section
/-!
SUPPORT. What a step is, by who moves: one equation for each case of the schedule.
-/
namespace Sys2Proof.Machine

/-- What a move comes to: the step is `s.nextMove.outcome`. -/
def Move.outcome : Move → Host.Outcome State Fault Refusal
  | .run i t => exec i t
  | .go t => .next t
  | .fault f => .fault f
  | .refuse r => .refused r

theorem step_eq_outcome (s : State) : step s = s.nextMove.outcome := by
  unfold step Move.outcome
  cases s.nextMove <;> rfl

/-- An idle block without a host move waits. -/
theorem step_idle_nil {s : State} (h : s.work.phase = .idle) (he : s.events = []) : step s = .next s := by
  simp [step, State.nextMove, State.hostTurn, h, he]

/-- When the block has the turn, the step is its internal step. -/
theorem step_block {s u : State} (h : s.blockNext u) : step s = u.blockMove.outcome := by
  obtain ⟨hp, ⟨he, rfl⟩ | ⟨turns, he, hs, rfl⟩⟩ := h
  · rw [step_eq_outcome]
    congr 1
    unfold State.nextMove
    rw [hp]
    rcases he with he | he
    · simp [he]
    · rw [he]
      cases u.events <;> rfl
  · rw [step_eq_outcome]
    congr 1
    unfold State.nextMove
    rw [hp, hs]
    obtain ⟨ev, rest, hev⟩ := List.exists_cons_of_ne_nil he
    rw [hev]

/-- When the host has the turn, the step is its first pending move. -/
theorem step_host {s u : State} {ev : Event} (h : s.hostNext ev u) : step s = (u.hostMove ev).outcome := by
  obtain ⟨rest, he, hp⟩ := h
  rw [step_eq_outcome]
  congr 1
  unfold State.nextMove
  rcases hp with ⟨hp, rfl⟩ | ⟨turns, hp, hs, rfl⟩
  · rw [hp]
    simp [State.hostTurn, he]
  · rw [hp, he, hs]
    simp [State.hostTurn]

/-- Who moves in a step: nobody, the host with its first pending move, or the block. -/
theorem step_cases (s : State) :
    (s.work.phase = .idle ∧ s.events = [] ∧ step s = .next s) ∨
    (∃ ev u, s.hostNext ev u ∧ step s = (u.hostMove ev).outcome) ∨
    (∃ u, s.blockNext u ∧ step s = u.blockMove.outcome) := by
  by_cases he : s.events = []
  · by_cases hp : s.work.phase = .idle
    · exact .inl ⟨hp, he, step_idle_nil hp he⟩
    · have hb : s.blockNext s := ⟨by cases h : s.work.phase <;> simp_all, .inl ⟨.inl he, rfl⟩⟩
      exact .inr (.inr ⟨s, hb, step_block hb⟩)
  · obtain ⟨ev, rest, hev⟩ := List.exists_cons_of_ne_nil he
    by_cases hp : s.work.phase = .idle
    · have h : s.hostNext ev { s with events := rest } := ⟨rest, hev, .inl ⟨hp, rfl⟩⟩
      exact .inr (.inl ⟨ev, _, h, step_host h⟩)
    · have hb : s.work.phase = .busy := by cases h : s.work.phase <;> simp_all
      by_cases hs : s.sched = []
      · have h : s.blockNext s := ⟨hb, .inl ⟨.inr hs, rfl⟩⟩
        exact .inr (.inr ⟨s, h, step_block h⟩)
      · obtain ⟨a, turns, hst⟩ := List.exists_cons_of_ne_nil hs
        cases a
        · have h : s.hostNext ev { s with events := rest, sched := turns } :=
            ⟨rest, hev, .inr ⟨turns, hb, hst, rfl⟩⟩
          exact .inr (.inl ⟨ev, _, h, step_host h⟩)
        · have h : s.blockNext { s with sched := turns } := ⟨hb, .inr ⟨turns, he, hst, rfl⟩⟩
          exact .inr (.inr ⟨_, h, step_block h⟩)

/-- A run continues a run. -/
theorem reaches_trans {k l : Nat} {s t u : State} (h : reaches k s t) (h' : reaches l t u) :
    reaches (k + l) s u := by
  induction k generalizing s with
  | zero => cases h; simpa using h'
  | succ k ih =>
    obtain ⟨v, hv, hr⟩ := h
    rw [Nat.add_right_comm]
    exact ⟨v, hv, ih hr⟩

end Sys2Proof.Machine
end

