-- ==== Sys2Proof/Tests/Slice0.lean ====
section
/-!
SUPPORT. Tests: ill-formed terms that WellFormed refuses, words written out from the spec's encodings, one or
two single steps for each instruction with results from 95_test_vectors.md, and for each statement with
hypotheses a concrete case that meets them.
-/
namespace Sys2Proof.Tests

open Sys2Proof Sys2Proof.Machine

/-! ### WellFormed: an ill-formed term for each check -/

theorem test_wf_refuses_run_count_1 : Instr.wf (.run 0x01 0x01 0x41) = false := by decide
theorem test_wf_refuses_run_count_0 : Instr.wf (.run 0x01 0x00 0x41) = false := by decide
theorem test_wf_refuses_esc_value_equal : Instr.wf (.illegalEscValue 0x01 0x01) = false := by decide
theorem test_wf_refuses_trunc_value_count_0 : Instr.wf (.truncValue 0x01 0x00) = false := by decide
theorem test_wf_refuses_rsvd_without_reserved_bits : Instr.wf (.illegalCmdRsvd 0 1) = false := by decide
theorem test_wf_refuses_rsvd_with_op_0 : Instr.wf (.illegalCmdRsvd 1 0) = false := by decide
theorem test_fits_refuses_lit_escape : Instr.fits 0x01 (.lit 0x01) = false := by decide
theorem test_fits_refuses_run_other_escape : Instr.fits 0x01 (.run 0x02 0x04 0x41) = false := by decide
theorem test_fits_refuses_esc_other_escape : Instr.fits 0x01 (.esc 0x02) = false := by decide
theorem test_fits_refuses_illegal_other_escape :
    (Instr.fits 0x01 (.illegalEscValue 0x02 0x03) || Instr.fits 0x01 (.illegalCount0 0x02)
      || Instr.fits 0x01 (.truncCount 0x02) || Instr.fits 0x01 (.truncValue 0x02 0x05)) = false := by decide

/-! ### Decode: every row's word, written out from the spec's encoding -/

theorem test_decode_pack : decodeCommand 0b00000000000000000000000000000001 = .pack := by decide
theorem test_decode_encode : decodeCommand 0b00000000000000000000000000000010 = .encode := by decide
theorem test_decode_decode : decodeCommand 0b00000000000000000000000000000011 = .decode := by decide
/-- H9: 0x00000000 and 0x00000004 have OP = 00. -/
theorem test_decode_op0 : decodeCommand 0x00000000 = .illegalCmdOp0 0 ∧
    decodeCommand 0x00000004 = .illegalCmdOp0 1 := by decide
/-- H9 and Q3: 0x80000001 and 0x00000005 have reserved bits set. -/
theorem test_decode_rsvd : decodeCommand 0x80000001 = .illegalCmdRsvd 0x20000000 1 ∧
    decodeCommand 0x00000005 = .illegalCmdRsvd 1 1 := by decide
/-- S1: `0b11001001` is on, on, off, off, on, off, off, on. -/
theorem test_decode_pixel8 :
    decodePacked 0b11001001 = .pixel8 true true false false true false false true := by decide
theorem test_encode_pixel8 :
    Sys2Proof.encode (.pixel8 true true false false true false false true) = .packed 0xC9 := by decide
theorem test_decode_lit : decodeToken 0x01 [0x41, 0x01] = .ok (.lit 0x41, [0x01]) := by rfl
theorem test_decode_run :
    decodeToken 0x01 [0x01, 0xFF, 0x41, 0x01] = .ok (.run 0x01 0xFF 0x41, [0x01]) := by rfl
theorem test_decode_esc : decodeToken 0x01 [0x01, 0x01, 0x01] = .ok (.esc 0x01, []) := by rfl
theorem test_decode_esc_value :
    decodeToken 0x01 [0x01, 0x01, 0x02] = .ok (.illegalEscValue 0x01 0x02, []) := by rfl
theorem test_decode_count0 :
    decodeToken 0x01 [0x01, 0x00, 0x07] = .ok (.illegalCount0 0x01, [0x07]) := by rfl
theorem test_decode_trunc_count : decodeToken 0x01 [0x01] = .ok (.truncCount 0x01, []) := by rfl
theorem test_decode_trunc_value : decodeToken 0x01 [0x01, 0x05] = .ok (.truncValue 0x01 0x05, []) := by
  rfl
theorem test_decode_refuses_empty : decodeToken 0x01 [] = .error .endOfStream := by rfl
theorem test_decode_refuses_length : decodeTable 12 0 = .error (.noSuchLength 12) := by rfl
/-- X12: the same bytes under another escape byte. -/
theorem test_decode_other_escape : decodeToken 0x02 [0x01, 0x01, 0x01] = .ok (.lit 0x01, [0x01, 0x01]) := by
  rfl
theorem test_table_words :
    decodeTableWord 32 1 = some .pack ∧ decodeTableWord 32 0 = some (.illegalCmdOp0 0) ∧
    decodeTableWord 24 0x010101 = some (.esc 0x01) ∧
    decodeTableWord 24 0x010102 = some (.illegalEscValue 0x01 0x02) ∧
    decodeTableWord 24 0x012D41 = some (.run 0x01 0x2D 0x41) ∧
    decodeTableWord 16 0x0100 = some (.illegalCount0 0x01) ∧
    decodeTableWord 16 0x0105 = some (.truncValue 0x01 0x05) ∧
    decodeTableWord 8 0x41 = some (.lit 0x41) := by decide

/-! ### Small states -/

/-- A block with IN_CAP = 16 and OUT_CAP = 4. -/
def small : State :=
  State.resetWith 0 { inCap := 16, outCap := 4, regBase := 0, inBase := 0, outBase := 0 }

/-- An occasion on which the contents of a buffer became unspecified. -/
abbrev epoch0 : Draw := { stream := 0, num := 0 }

/-- A running command of operation `op`, its input `bs` in IN, with escape byte 01. -/
def running (op : Op) (checked : Bool) (bs : List Byte) : State :=
  { small with
    inBuf := Memory.ofBytes bs epoch0
    work := { small.work with
      phase := .busy, opl := op, e := 0x01, m := 4, n := BitVec.ofNat 32 bs.length, checked := checked } }

/-- A running PACK of width `w` and height `h` on the rows of samples, 1 being on. -/
def packing (checked : Bool) (w h : Word) (rows : List (List Nat)) : State :=
  { small with
    work := { small.work with
      phase := .busy, opl := .pack, w := w, h := h, checked := checked
      px := { rows := rows, fill := 0, onSamples := [1] } } }

/-- The next state of an outcome, if it has one. -/
def nextOf : Host.Outcome State Fault Refusal → Option State
  | .next t => some t
  | .fault _ => none
  | .refused _ => none

/-- The cursor and output of the next state. -/
def progress (o : Host.Outcome State Fault Refusal) : Option (Nat × List Byte) :=
  (nextOf o).map fun t => (t.work.pc, t.work.acc)

/-- STATUS, OUT_LEN and ERR_OFFSET of the next state. -/
def result (o : Host.Outcome State Fault Refusal) : Option (Word × Word × Word) :=
  (nextOf o).map fun t => (t.status, t.reg.outLen, t.reg.errOffset)

/-! ### Single steps (95_test_vectors.md) -/

/-- PACK starts: BUSY = 1, RESULT = NONE, WIDTH latched. -/
theorem test_exec_pack :
    (nextOf (exec .pack { small with reg := { small.reg with width := 8, result := .ok } })).map
      (fun t => (t.status, t.work.w, t.work.opl)) = some (1, 8, .pack) := by decide
/-- ENCODE starts with MIN_RUN = 4 from reset. -/
theorem test_exec_encode :
    (nextOf (exec .encode small)).map (fun t => (t.status, t.work.m, t.work.opl)) =
      some (1, 4, .encode) := by decide
theorem test_exec_decode :
    (nextOf (exec .decode { small with reg := { small.reg with inLen := 3 } })).map
      (fun t => (t.status, t.work.n, t.work.opl)) = some (1, 3, .decode) := by decide
/-- H9: STATUS = 0x70 at once. -/
theorem test_exec_op0 : result (exec (.illegalCmdOp0 1) small) = some (0x70, 0, 0) := by decide
theorem test_exec_rsvd : result (exec (.illegalCmdRsvd 0x20000000 1) small) = some (0x70, 0, 0) := by decide
/-- H8: a command word while BUSY is recorded in FAULT. -/
theorem test_exec_pack_busy :
    (nextOf (exec .pack (running .encode true []))).map (·.faults) = some [.registerWrite .cmd] := by decide
/-- P1. -/
theorem test_step_pixel8 :
    (nextOf (step (packing true 8 1 [[1, 1, 0, 0, 1, 0, 0, 1]]))).map
      (fun t => (t.work.acc, t.work.y, t.work.g)) = some ([0xC9], 1, 0) := by decide
/-- P2: width 10. -/
theorem test_step_pack_width_10 : result (step (packing false 10 1 [])) = some (0x20, 0, 0) := by decide
/-- E4 and Q1: MIN_RUN = 1. -/
theorem test_step_encode_min_run_1 :
    result (step { running .encode false [0x41] with
      work := { (running .encode false [0x41]).work with m := 1 } }) = some (0x30, 0, 0) := by decide
/-- X17: the Literal 05. -/
theorem test_step_lit : progress (step (running .decode true [0x05, 0x01])) = some (1, [0x05]) := by decide
/-- X14: four copies fit OUT_CAP = 4, five do not. -/
theorem test_step_run : progress (step (running .decode true [0x01, 0x04, 0x41])) =
    some (3, [0x41, 0x41, 0x41, 0x41]) := by decide
theorem test_step_run_over_capacity :
    result (step (running .decode true [0x01, 0x05, 0x41, 0x01])) = some (0x60, 0, 0) := by decide
/-- X1. -/
theorem test_step_esc : progress (step (running .decode true [0x01, 0x01, 0x01])) = some (3, [0x01]) := by
  decide
/-- X5. -/
theorem test_step_esc_value :
    result (step (running .decode true [0x01, 0x01, 0x02])) = some (0x50, 0, 2) := by decide
/-- X6. -/
theorem test_step_count0 : result (step (running .decode true [0x01, 0x00])) = some (0x50, 0, 1) := by decide
/-- X3. -/
theorem test_step_trunc_count : result (step (running .decode true [0x01])) = some (0x40, 0, 1) := by decide
/-- S5. -/
theorem test_step_trunc_value :
    result (step (running .decode true [0x01, 0x05])) = some (0x40, 0, 2) := by decide
/-- E17: four escape bytes are a Run. -/
theorem test_step_encode_run :
    progress (step (running .encode true [0x01, 0x01, 0x01, 0x01])) = some (4, [0x01, 0x04, 0x01]) := by
  decide
/-- E13: the first token of `01 02 ...` is an Escaped literal. -/
theorem test_step_encode_esc :
    progress (step (running .encode true [0x01, 0x02])) = some (1, [0x01, 0x01, 0x01]) := by decide
/-- H3: `WR ESCAPE, 0x12345678` stores 0x78. -/
theorem test_step_write_escape :
    (nextOf (step { small with events := [.wr 2 0x12345678] })).map (·.reg.escape) = some 0x78 := by decide
/-- The first step after reset runs the placed word. -/
theorem test_step_placed_word :
    (nextOf (step (State.reset.withFetchWord 32 3))).map (·.work.opl) = some .decode ∧
    progress (step (State.reset.withFetchWord 24 0x010241)) = some (3, [0x41, 0x41]) := by decide

/-! ### The three functions (95_test_vectors.md) -/

/-- E13. -/
theorem test_encode_E13 : Codec.encode [0x01, 0x02, 0x02, 0x02, 0x02, 0x03, 0x01, 0x01] 0x01 4 =
    .ok [0x01, 0x01, 0x01, 0x01, 0x04, 0x02, 0x03, 0x01, 0x01, 0x01, 0x01, 0x01, 0x01] := by rfl
/-- X13 and Q6. -/
theorem test_decode_X13_Q6 :
    Codec.decode [0x41, 0x01, 0x03, 0x05, 0x01] 0x01 = .error (.truncatedStream, 5) ∧
    Codec.decode [0x01, 0x01, 0x02, 0x01] 0x01 = .error (.malformedToken, 2) := ⟨rfl, rfl⟩
/-- P5. -/
theorem test_pack_P5 :
    Codec.pack 16 2 { rows := [[1, 0, 0, 0, 0, 0, 0, 0, 0, 0, 0, 0, 0, 0, 0, 1],
                               [1, 1, 1, 1, 1, 1, 1, 1, 0, 0, 0, 0, 0, 0, 0, 0]],
                      fill := 0, onSamples := [1] } = .ok [0x80, 0x01, 0xFF, 0x00] := by rfl
/-- Program B: the token lines and their bytes. -/
theorem test_assemble_B :
    Program.assemble 0x01 [.lit 0x41, .run 0x01 5 0x42, .esc 0x01, .lit 0x43, .run 0x01 2 0x01] =
      some [0x41, 0x01, 0x05, 0x42, 0x01, 0x01, 0x01, 0x43, 0x01, 0x02, 0x01] ∧
    Program.assemble 0x01 [.lit 0x01] = none := by decide

/-! ### Cases that meet the statements' hypotheses -/

/-- The host's move of an idle block. -/
theorem idle_hostNext (s : State) (ev : Event) (rest : List Event) (h : s.work.phase = .idle) :
    State.hostNext { s with events := ev :: rest } ev { s with events := rest } :=
  ⟨rest, rfl, .inl ⟨h, rfl⟩⟩

/-- The host's move of a busy block, the schedule giving it the turn. -/
theorem busy_hostNext (s : State) (ev : Event) (h : s.work.phase = .busy) :
    State.hostNext { s with events := [ev], sched := [.host] } ev { s with events := [], sched := [] } :=
  ⟨[], rfl, .inr ⟨[], h, rfl, rfl⟩⟩

/-- The block's move when the host has none. -/
theorem alone_blockNext (s : State) (h : s.work.phase = .busy) (he : s.events = []) : s.blockNext s :=
  ⟨h, .inl ⟨.inl he, rfl⟩⟩

theorem running_blockNext (op : Op) (checked : Bool) (bs : List Byte) :
    (running op checked bs).blockNext (running op checked bs) := alone_blockNext _ rfl rfl

theorem packing_blockNext (checked : Bool) (w h : Word) (rows : List (List Nat)) :
    (packing checked w h rows).blockNext (packing checked w h rows) := alone_blockNext _ rfl rfl

/-- The block's move when the schedule gives it a turn. -/
theorem witness_blockNext_scheduled :
    State.blockNext { running .decode true [0x05] with events := [.rd 1], sched := [.block] }
      { running .decode true [0x05] with events := [.rd 1] } :=
  ⟨rfl, .inr ⟨[], by simp, rfl, rfl⟩⟩

theorem witness_EncodedInstructionDecodesToItself :
    Instr.wf (.run 0x01 0x02 0x01) = true ∧ Instr.fits 0x01 (.run 0x01 0x02 0x01) = true := by decide
theorem witness_TokenStreamDecodesInOrder :
    (∀ i ∈ [Instr.lit 0x41, .run 0x01 0xFF 0x42, .esc 0x01],
      i.isToken = true ∧ i.wf = true ∧ i.fits 0x01 = true) ∧
    [Instr.lit 0x41, .run 0x01 0xFF 0x42, .esc 0x01].length ≤ 3 := by decide
theorem witness_DecodedTokenIsPrefixOfStream :
    decodeToken 0x01 [0x01, 0x05] = .ok (.truncValue 0x01 0x05, []) ∧
    Instr.endsStream (.truncValue 0x01 0x05) = true := ⟨rfl, rfl⟩
theorem witness_OnlyThreeCommandWordsAreLegal :
    ((0 : Word) ≠ 1 ∧ (0 : Word) ≠ 2 ∧ (0 : Word) ≠ 3) ∧ (4 : Word) ≠ 1 ∧ (4 : Word) ≠ 2 ∧ (4 : Word) ≠ 3 := by
  decide
theorem witness_StepRunsCommandWord :
    State.hostNext { small with events := [.wr 0 1] } (.wr 0 1) small := idle_hostNext small _ [] rfl
theorem witness_StepRunsDecodedToken :
    let u := running .decode true [0x05]
    u.blockNext u ∧ u.iterating .decode ∧
    decodeToken u.work.e (u.inBuf.bytes u.work.pc (min 3 (u.work.n.toNat - u.work.pc))) =
      .ok (.lit 0x05, []) := ⟨running_blockNext _ _ _, ⟨rfl, rfl⟩, by rfl⟩
theorem witness_StepRunsPackedGroup :
    let u := packing true 8 1 [[1]]
    u.blockNext u ∧ u.iterating .pack ∧ u.work.y < u.work.h.toNat ∧ 0 < u.work.w.toNat / 8 :=
  ⟨packing_blockNext _ _ _ _, ⟨rfl, rfl⟩, by decide, by decide⟩
theorem witness_PlacedWordIsRunNext :
    State.reset.work.pc + 3 < 2 ^ 32 ∧ decodeTableWord 24 0x010241 = some (.run 0x01 0x02 0x41) ∧
    decodeTableWord 32 2 = some .encode := by decide
theorem witness_CommandStartsAndLatches : small.work.phase = .idle := rfl
theorem witness_CommandWriteWhileBusyIsHazard : (running .encode true [0x41]).work.phase = .busy := rfl
theorem witness_IllegalCommandCompletesAtOnce :
    small.work.phase = .idle ∧ State.hostNext { small with events := [.wr 0 4] } (.wr 0 4) small ∧
    ((4 : Word).extractLsb' 0 2 = 0 ∨ (4 : Word).extractLsb' 2 30 ≠ 0) ∧
    ((0x80000001 : Word).extractLsb' 0 2 = 0 ∨ (0x80000001 : Word).extractLsb' 2 30 ≠ 0) :=
  ⟨rfl, idle_hostNext small _ [] rfl, by decide, by decide⟩
/-- Widths 15 and 16 about the width check, output sizes 5 and 4 about OUT_CAP = 4. -/
theorem witness_PackChecksWidthThenCapacity :
    (∀ w h, (packing false w h []).blockNext (packing false w h []) ∧
      (packing false w h []).checking .pack ∧ (packing false w h []).spoiled = false) ∧
    (packing false 15 1 []).work.w.toNat % 8 ≠ 0 ∧
    ((packing false 8 5 []).work.w.toNat % 8 = 0 ∧
      (packing false 8 5 []).cfg.outCap.val <
        (packing false 8 5 []).work.h.toNat * ((packing false 8 5 []).work.w.toNat / 8)) ∧
    (packing false 16 2 []).work.h.toNat * ((packing false 16 2 []).work.w.toNat / 8) ≤
      (packing false 16 2 []).cfg.outCap.val :=
  ⟨fun _ _ => ⟨packing_blockNext _ _ _ _, ⟨rfl, rfl⟩, rfl⟩, by decide, by decide, by decide⟩
/-- A started ENCODE with MIN_RUN `m` and IN_LEN `n`. -/
def encodeStart (m n : Word) : State :=
  let s := running .encode false []
  { s with work := { s.work with m := m, n := n } }
/-- MIN_RUN 1 and 2, IN_LEN 17 and 16 about IN_CAP = 16. -/
theorem witness_EncodeChecksMinRunThenCapacity :
    (∀ m n, (encodeStart m n).blockNext (encodeStart m n) ∧ (encodeStart m n).checking .encode ∧
      (encodeStart m n).spoiled = false) ∧
    (encodeStart 1 0).work.m.toNat < 2 ∧
    (2 ≤ (encodeStart 2 17).work.m.toNat ∧
      (encodeStart 2 17).cfg.inCap.val < (encodeStart 2 17).work.n.toNat) ∧
    (2 ≤ (encodeStart 2 16).work.m.toNat ∧
      (encodeStart 2 16).work.n.toNat ≤ (encodeStart 2 16).cfg.inCap.val) :=
  ⟨fun _ _ => ⟨alone_blockNext _ rfl rfl, ⟨rfl, rfl⟩, rfl⟩, by decide, by decide, by decide⟩
/-- A started DECODE with IN_LEN `n`. -/
def decodeStart (n : Word) : State :=
  let s := running .decode false []
  { s with work := { s.work with n := n } }
theorem witness_DecodeChecksCapacityOnly :
    (∀ n, (decodeStart n).blockNext (decodeStart n) ∧ (decodeStart n).checking .decode ∧
      (decodeStart n).spoiled = false) ∧
    (decodeStart 17).cfg.inCap.val < (decodeStart 17).work.n.toNat ∧
    (decodeStart 16).work.n.toNat ≤ (decodeStart 16).cfg.inCap.val :=
  ⟨fun _ => ⟨alone_blockNext _ rfl rfl, ⟨rfl, rfl⟩, rfl⟩, by decide, by decide⟩
theorem witness_FinishedCommandCompletes :
    (let u := running .decode true []
     u.blockNext u ∧ u.spoiled = false ∧ u.work.acc.length ≤ u.cfg.outCap.val ∧ u.iterating .decode ∧
       u.work.pc = u.work.n.toNat) ∧
    (let u := running .encode true []
     u.blockNext u ∧ u.iterating .encode ∧ u.work.pc = u.work.n.toNat) ∧
    (let u := packing true 8 0 []
     u.blockNext u ∧ u.iterating .pack ∧ u.work.y = u.work.h.toNat) ∧
    (let u := packing true 0 5 []
     u.blockNext u ∧ u.iterating .pack ∧ u.work.w.toNat / 8 = 0) :=
  ⟨⟨running_blockNext _ _ _, rfl, by decide, ⟨rfl, rfl⟩, rfl⟩,
   ⟨running_blockNext _ _ _, ⟨rfl, rfl⟩, rfl⟩,
   ⟨packing_blockNext _ _ _ _, ⟨rfl, rfl⟩, rfl⟩,
   ⟨packing_blockNext _ _ _ _, ⟨rfl, rfl⟩, rfl⟩⟩
theorem witness_LiteralEmitsItsByte :
    let u := running .decode true [0x05]
    u.blockNext u ∧ u.iterating .decode ∧ u.atCursor [0x05] ∧ (0x05 : Byte) ≠ u.work.e ∧
      u.work.acc.length + 1 ≤ u.cfg.outCap.val :=
  ⟨running_blockNext _ _ _, ⟨rfl, rfl⟩, ⟨by decide, rfl⟩, by decide, by decide⟩
/-- Counts 2 and 4, the least count and the most that fits OUT_CAP = 4. -/
theorem witness_RunRepeatsItsValue :
    let u := running .decode true [0x01, 0x02, 0x41]
    u.blockNext u ∧ u.iterating .decode ∧ u.atCursor [u.work.e, 0x02, 0x41] ∧
      2 ≤ (0x02 : Byte).toNat ∧ u.work.acc.length + (0x04 : Byte).toNat ≤ u.cfg.outCap.val :=
  ⟨running_blockNext _ _ _, ⟨rfl, rfl⟩, ⟨by decide, rfl⟩, by decide, by decide⟩
theorem witness_EscapedLiteralEmitsEscape :
    let u := running .decode true [0x01, 0x01, 0x01]
    u.blockNext u ∧ u.iterating .decode ∧ u.atCursor [u.work.e, 1, u.work.e] ∧
      u.work.acc.length + 1 ≤ u.cfg.outCap.val :=
  ⟨running_blockNext _ _ _, ⟨rfl, rfl⟩, ⟨by decide, rfl⟩, by decide⟩
/-- A running DECODE with OUT full. -/
def full : State :=
  let s := running .decode true [0x05]
  { s with work := { s.work with acc := [0, 0, 0, 0] } }
theorem witness_TokenOverCapacityFails :
    full.spoiled = false ∧ full.cfg.outCap.val < full.work.acc.length + 1 ∧
    (running .decode true []).cfg.outCap.val <
      (running .decode true []).work.acc.length + (0x05 : Byte).toNat := by decide
theorem witness_EscapedValueOtherThanEscapeIsMalformed :
    let u := running .decode true [0x01, 0x01, 0x02]
    u.blockNext u ∧ u.iterating .decode ∧ u.atCursor [u.work.e, 1, 0x02] ∧ (0x02 : Byte) ≠ u.work.e ∧
      u.spoiled = false :=
  ⟨running_blockNext _ _ _, ⟨rfl, rfl⟩, ⟨by decide, rfl⟩, by decide, rfl⟩
theorem witness_CountZeroIsMalformed :
    let u := running .decode true [0x01, 0x00]
    u.blockNext u ∧ u.iterating .decode ∧ u.atCursor [u.work.e, 0] ∧ u.spoiled = false :=
  ⟨running_blockNext _ _ _, ⟨rfl, rfl⟩, ⟨by decide, rfl⟩, rfl⟩
theorem witness_StreamEndingInTokenIsTruncated :
    (let u := running .decode true [0x01]
     u.blockNext u ∧ u.iterating .decode ∧ u.endsWith [u.work.e] ∧ u.spoiled = false) ∧
    (let u := running .decode true [0x01, 0x01]
     u.blockNext u ∧ u.iterating .decode ∧ u.endsWith [u.work.e, 0x01] ∧ (0x01 : Byte) ≠ 0 ∧
       u.spoiled = false) :=
  ⟨⟨running_blockNext _ _ _, ⟨rfl, rfl⟩, ⟨rfl, rfl⟩, rfl⟩,
   ⟨running_blockNext _ _ _, ⟨rfl, rfl⟩, ⟨rfl, rfl⟩, by decide, rfl⟩⟩
/-- A run of one byte that fits, and a run of four in a full OUT. -/
theorem witness_EncodeIterationEmitsToken :
    (let u := running .encode true [0x41, 0x42]
     u.blockNext u ∧ u.iterating .encode ∧ u.work.pc + 1 ≤ u.work.n.toNat ∧
       (∀ k < 1, u.inBuf.read (u.work.pc + k) = u.inBuf.read u.work.pc) ∧
       u.inBuf.read (u.work.pc + 1) ≠ u.inBuf.read u.work.pc ∧
       u.work.acc.length + [(0x41 : Byte)].length ≤ u.cfg.outCap.val) ∧
    (let s := running .encode true [0x42, 0x42, 0x42, 0x42]
     let u : State := { s with work := { s.work with acc := [0, 0] } }
     u.blockNext u ∧ u.iterating .encode ∧ u.work.pc + 4 = u.work.n.toNat ∧
       (∀ k < 4, u.inBuf.read (u.work.pc + k) = u.inBuf.read u.work.pc) ∧ u.work.m.toNat ≤ 4 ∧
       u.cfg.outCap.val < u.work.acc.length + [(0x01 : Byte), 0x04, 0x42].length ∧
       u.spoiled = false) :=
  ⟨⟨running_blockNext _ _ _, ⟨rfl, rfl⟩, by decide, by decide, by decide, by decide⟩,
   ⟨alone_blockNext _ rfl rfl, ⟨rfl, rfl⟩, by decide, by decide, by decide, by decide, rfl⟩⟩
theorem running_read (op : Op) (bs : List Byte) (k : Nat) :
    (running op true bs).inBuf.read k = (bs[k]?).getD (Config.freeByte epoch0 k) := Memory.read_ofBytes bs epoch0 k
/-- A run of 256 equal bytes, measured as 255. -/
theorem witness_EncodeIteration_capped :
    let u := running .encode true (List.replicate 256 0x41)
    u.blockNext u ∧ u.iterating .encode ∧ u.work.pc + 255 ≤ u.work.n.toNat ∧
      (∀ k < 255, u.inBuf.read (u.work.pc + k) = u.inBuf.read u.work.pc) ∧
      u.work.acc.length + [(0x01 : Byte), 0xFF, 0x41].length ≤ u.cfg.outCap.val := by
  refine ⟨running_blockNext _ _ _, ⟨rfl, rfl⟩, ?_, fun k hk => ?_, by decide⟩
  · show 0 + 255 ≤ (BitVec.ofNat 32 (List.replicate 256 (0x41 : Byte)).length).toNat
    rw [List.length_replicate]
    decide
  · show (running .encode true _).inBuf.read (0 + k) = (running .encode true _).inBuf.read 0
    have h : k < 256 := by omega
    rw [running_read, running_read, Nat.zero_add, List.getElem?_replicate, List.getElem?_replicate,
      if_pos h, if_pos (by decide)]
    rfl
theorem witness_RegistersAfterReset :
    (State.reset = State.reset ∧ 0 = 0) ∧ ∃ c, State.resetWith 3 Config.standard = State.resetWith 3 c :=
  ⟨⟨rfl, rfl⟩, _, rfl⟩
theorem witness_ResetAbandonsCommand :
    State.hostNext { running .encode true [0x41] with events := [.reset], sched := [.host] } .reset
      { running .encode true [0x41] with events := [], sched := [] } ∧
    State.hostNext { small with events := [.reset] } .reset small :=
  ⟨busy_hostNext _ _ rfl, idle_hostNext small _ [] rfl⟩
theorem witness_RegisterReadsBackWhatWasWritten :
    let s : State := { small with events := [.wr 2 0x12345678, .rd 2] }
    s.work.phase = .idle ∧ s.events = .wr 2 0x12345678 :: .rd 2 :: [] := ⟨rfl, rfl⟩
theorem witness_ReadOnlyRegistersIgnoreWrites :
    small.work.phase = .idle ∧ State.hostNext { small with events := [.wr 8 7] } (.wr 8 7) small :=
  ⟨rfl, idle_hostNext small _ [] rfl⟩
theorem witness_IdleReadsAnswerWithoutSideEffect :
    State.hostNext { small with events := [.rd 0] } (.rd 0) small ∧
    State.hostNext { small with events := [.rd 8] } (.rd 8) small ∧ 15 < small.cap .inBuf ∧
    3 < small.cap .outBuf ∧ State.hostNext { small with events := [.rdb .outBuf 3] } (.rdb .outBuf 3) small :=
  ⟨idle_hostNext small _ [] rfl, idle_hostNext small _ [] rfl, by decide, by decide,
   idle_hostNext small _ [] rfl⟩
theorem witness_BufferWriteChangesOneByte :
    small.work.phase = .idle ∧ 15 < small.cap .inBuf ∧ small.buffersOk ∧
    State.hostNext { small with events := [.wrb .inBuf 15 0x41] } (.wrb .inBuf 15 0x41) small :=
  ⟨rfl, by decide, by decide, idle_hostNext small _ [] rfl⟩
theorem witness_AccessOutsideTheMapStops :
    State.hostNext { small with events := [.wr 9 0] } (.wr 9 0) small ∧
    State.hostNext { small with events := [.rd 9] } (.rd 9) small ∧
    State.hostNext { small with events := [.otherWidth 16] } (.otherWidth 16) small ∧
    State.hostNext { small with events := [.wrb .inBuf 16 0] } (.wrb .inBuf 16 0) small ∧
    State.hostNext { small with events := [.rdb .outBuf 4] } (.rdb .outBuf 4) small ∧
    small.cap .inBuf ≤ 16 ∧ small.cap .outBuf ≤ 4 :=
  ⟨idle_hostNext small _ [] rfl, idle_hostNext small _ [] rfl, idle_hostNext small _ [] rfl,
   idle_hostNext small _ [] rfl, idle_hostNext small _ [] rfl, by decide, by decide⟩
theorem witness_HostWriteWhileBusyIsRecorded :
    (running .encode true [0x41]).work.phase = .busy ∧ RegName.ofIndex 0 = some .cmd ∧
    RegName.ofIndex 8 = some .errOffset ∧
    State.hostNext { running .encode true [0x41] with events := [.wr 0 1], sched := [.host] } (.wr 0 1)
      { running .encode true [0x41] with events := [], sched := [] } ∧
    State.hostNext { running .encode true [0x41] with events := [.wr 8 5], sched := [.host] } (.wr 8 5)
      { running .encode true [0x41] with events := [], sched := [] } ∧
    State.hostNext { running .encode true [0x41] with events := [.wrb .inBuf 16 5], sched := [.host] }
      (.wrb .inBuf 16 5) { running .encode true [0x41] with events := [], sched := [] } ∧
    State.hostNext { running .encode true [0x41] with events := [.bind default], sched := [.host] }
      (.bind default) { running .encode true [0x41] with events := [], sched := [] } :=
  ⟨rfl, rfl, rfl, busy_hostNext _ _ rfl, busy_hostNext _ _ rfl, busy_hostNext _ _ rfl,
   busy_hostNext _ _ rfl⟩
/-- A step that puts a hazard into FAULT. -/
theorem witness_FaultRecordIsSticky :
    let s : State := { running .encode true [0x41] with events := [.wr 3 5], sched := [.host] }
    (nextOf (step s)).map (·.faults) = some [.registerWrite .minRun] ∧ s.faults = [] := ⟨by decide, rfl⟩
theorem running_inv : (running .encode true [0x41]).Inv :=
  ⟨by decide,
   fun _ => ⟨rfl, show 2 ≤ (running .encode true [0x41]).work.m.toNat ∧
     (running .encode true [0x41]).work.streamOk 16 4 from by decide⟩,
   fun h => (by cases h),
   fun _ => ⟨by decide, by decide, rfl⟩⟩
/-- A busy state of the invariant, FAULT empty, with a read of each kind pending. -/
theorem witness_ReadsWhileBusy :
    (∀ ev ∈ [Event.rd 0, .rd 1, .rd 2, .rd 6, .rdb .inBuf 15, .rd 7, .rd 8, .rdb .outBuf 3],
      let s : State := { running .encode true [0x41] with events := [ev], sched := [.host] }
      s.work.phase = .busy ∧ s.Inv ∧ s.clean ∧
      s.hostNext ev { running .encode true [0x41] with events := [], sched := [] }) ∧
    15 < small.cfg.inCap.val ∧ 3 < small.cfg.outCap.val :=
  ⟨fun _ _ => ⟨rfl, running_inv, rfl, busy_hostNext _ _ rfl⟩, by decide, by decide⟩
theorem witness_BindAndPollMoves :
    State.hostNext { small with events := [.bind default] } (.bind default) small ∧
    State.hostNext { small with events := [.poll] } .poll small :=
  ⟨idle_hostNext small _ [] rfl, idle_hostNext small _ [] rfl⟩
theorem witness_CopyMovesOutputToInput :
    let s : State := { small with
      reg := { small.reg with outLen := 4 }, outBuf := Memory.ofBytes [1, 2, 3, 4] epoch0, events := [.copy] }
    s.work.phase = .idle ∧ s.events = .copy :: [] ∧ s.reg.outLen.toNat ≤ s.cfg.inCap.val ∧
      s.reg.outLen.toNat ≤ s.cfg.outCap.val := ⟨rfl, rfl, by decide, by decide⟩
theorem witness_IdleBlockWaits : small.work.phase = .idle ∧ small.events = [] := ⟨rfl, rfl⟩
theorem witness_BlockNeverWritesInput :
    (running .encode true [0x41]).blockNext (running .encode true [0x41]) ∧
    (nextOf (step (running .encode true [0x41]))).isSome = true ∧
    (nextOf (step (running .encode true [0x41]))).map (·.work.phase) = some .busy :=
  ⟨running_blockNext _ _ _, by decide, by decide⟩
theorem witness_NothingVisibleBeforeCompletion :
    (running .decode true [0x41]).blockNext (running .decode true [0x41]) ∧
    (nextOf (step (running .decode true [0x41]))).map (·.work.phase) = some .busy :=
  ⟨running_blockNext _ _ _, by decide⟩
theorem witness_EveryStepKeepsInvariant : small.Inv ∧ step small = .next small := by
  refine ⟨⟨by decide, fun h => (by cases h), fun h => (by cases h), fun _ => ?_⟩, rfl⟩
  exact ⟨by decide, by decide, rfl, fun _ => rfl, fun _ _ => rfl⟩
theorem witness_InstancesShareNothing :
    stepInstance 1 [small, small] = some (.next [small, small]) := rfl
theorem witness_InstancesDrawApart :
    (resetInstances [small.cfg, small.cfg])[0]? = some (State.resetWith 0 small.cfg) ∧
    (resetInstances [small.cfg, small.cfg])[1]? = some (State.resetWith 1 small.cfg) ∧
    step small = .next small := ⟨rfl, rfl, rfl⟩
/-- A hazard frees OUT, also where BUSY may have gone to 0: R142. -/
theorem test_hazard_frees_output (a : Nat) :
    (({ running .encode true [0x41] with outBuf := Memory.ofBytes [0x41] epoch0 }).hazard
      (.registerWrite .cmd)).outBuf.read a = Config.freeByte small.draws a := rfl
theorem witness_DecodeUndoesEncode : 2 ≤ (2 : Word).toNat := by decide
theorem witness_EncodedLengthAtMostTriple :
    Codec.encode [0x01] 0x01 2 = .ok [0x01, 0x01, 0x01] ∧ 3 < (4 : Word).toNat ∧ 2 ≤ (4 : Word).toNat :=
  ⟨rfl, by decide, by decide⟩
theorem witness_LongRunIsSplitAt255 :
    254 < 255 ∧ 2 ≤ (2 : Word).toNat ∧ (2 : Word).toNat ≤ 255 ∧ 2 ≤ (255 : Word).toNat ∧
      (255 : Word).toNat ≤ 255 := by decide
theorem witness_MinRunAbove255EmitsNoRun : 256 ≤ (256 : Word).toNat := by decide
theorem witness_EncoderAddsNoZeroPair :
    (1 : Byte) ≠ 0 ∧ noZeroPair [0, 1] ∧ Codec.encode [0, 1] 1 4 = .ok [0, 1, 1, 1] := by
  refine ⟨by decide, ?_, rfl⟩
  rintro (_ | _ | i) <;> simp
theorem witness_DecodedLengthAtMost85Times : Codec.decode [0x01, 0x02, 0x07] 0x01 = .ok [0x07, 0x07] := rfl
theorem witness_PackedLengthIsExact :
    Codec.pack 8 1 { rows := [], fill := 0, onSamples := [] } = .ok [0x00] := rfl
theorem witness_PackedPixelHasItsBit :
    Codec.pack 8 1 { rows := [], fill := 0, onSamples := [] } = .ok [0x00] ∧ 7 < 8 ∧ 0 < 1 ∧ 0 < 8 / 8 :=
  ⟨rfl, by decide, by decide, by decide⟩
/-- A block whose WIDTH, HEIGHT fill OUT_CAP = 4 exactly. -/
theorem witness_PackCommandComputesPack :
    let s : State := { small with reg := { small.reg with width := 16, height := 2 } }
    s.reg.width.toNat % 8 = 0 ∧ s.reg.height.toNat * (s.reg.width.toNat / 8) ≤ s.cfg.outCap.val := by decide
/-- An idle block with escape byte 01, MIN_RUN 4 and the input `bs`. -/
def loaded (bs : List Byte) : State :=
  { small with
    reg := { small.reg with escape := 0x01, inLen := BitVec.ofNat 32 bs.length }
    inBuf := Memory.ofBytes bs epoch0 }
/-- An input whose encoding fits OUT_CAP = 4, and one whose encoding does not. -/
theorem witness_EncodeCommandComputesEncode :
    (loaded [0x41]).reg.inLen.toNat ≤ (loaded [0x41]).cfg.inCap.val ∧
    Codec.encode (loaded [0x41]).input (loaded [0x41]).reg.escape (loaded [0x41]).reg.minRun =
      .ok [0x41] ∧
    Codec.encode (loaded [0x01, 0x01]).input (loaded [0x01, 0x01]).reg.escape
      (loaded [0x01, 0x01]).reg.minRun = .ok [0x01, 0x01, 0x01, 0x01, 0x01, 0x01] := by
  refine ⟨by decide, rfl, rfl⟩
/-- A stream whose output is 4 bytes, and one whose output is 5. -/
theorem witness_DecodeCommandComputesDecode :
    (loaded [0x01, 0x04, 0x41]).reg.inLen.toNat ≤ (loaded [0x01, 0x04, 0x41]).cfg.inCap.val ∧
    Codec.decode (loaded [0x01, 0x04, 0x41]).input (loaded [0x01, 0x04, 0x41]).reg.escape =
      .ok [0x41, 0x41, 0x41, 0x41] ∧
    Codec.decode (loaded [0x01, 0x05, 0x41]).input (loaded [0x01, 0x05, 0x41]).reg.escape =
      .ok [0x41, 0x41, 0x41, 0x41, 0x41] := by
  refine ⟨by decide, rfl, rfl⟩
/-- A truncated stream in the small block, one in a block whose OUT has 85 bytes for its one byte, and the
example of R128, where the five bytes of the token before it do not fit OUT_CAP = 4. -/
theorem witness_DecodeCommandReportsFirstError :
    Codec.decode (loaded [0x01, 0x05]).input (loaded [0x01, 0x05]).reg.escape =
      .error (.truncatedStream, 2) ∧
    (let s : State := { loaded [0x01] with cfg := { small.cfg with outCap := 85 } }
     s.reg.inLen.toNat ≤ s.cfg.inCap.val ∧
     Codec.decode s.input s.reg.escape = .error (.truncatedStream, 1) ∧
     85 * s.reg.inLen.toNat ≤ s.cfg.outCap.val) ∧
    Codec.decode (loaded [0x01, 0x05, 0x41, 0x01]).input 0x01 = .error (.truncatedStream, 4) := by
  refine ⟨rfl, ⟨by decide, rfl, by decide⟩, rfl⟩

end Sys2Proof.Tests
end

section
/-!
PROOFS. Facts about the operations of the model that the proofs below go through.
-/
namespace Sys2Proof.Machine

/-! ### Who moves -/

theorem Phase.idle_of_ne_busy {p : Phase} (h : p ≠ .busy) : p = .idle := by
  cases p with
  | idle => rfl
  | busy => exact absurd rfl h

/-- When the host moves next, only its own two lists differ. -/
theorem hostNext_frame {s u : State} {ev : Event} (h : s.hostNext ev u) :
    u = { s with events := u.events, sched := u.sched } := by
  obtain ⟨_, _, ⟨_, rfl⟩ | ⟨_, _, _, rfl⟩⟩ := h <;> rfl

theorem hostNext_phase {s u : State} {ev : Event} (h : s.hostNext ev u) : u.work.phase = s.work.phase := by
  rw [hostNext_frame h]

theorem hostNext_cap {s u : State} {ev : Event} (h : s.hostNext ev u) (b : Buf) : u.cap b = s.cap b := by
  rw [hostNext_frame h]
  rfl

/-- While idle the host's first pending move comes next. -/
theorem hostNext_of_idle {s : State} {ev : Event} {rest : List Event} (hi : s.work.phase = .idle)
    (he : s.events = ev :: rest) : s.hostNext ev { s with events := rest } :=
  ⟨rest, he, .inl ⟨hi, rfl⟩⟩

/-- When the block moves next, only the schedule differs. -/
theorem blockNext_frame {s u : State} (h : s.blockNext u) : u = { s with sched := u.sched } := by
  obtain ⟨_, ⟨_, rfl⟩ | ⟨_, _, _, rfl⟩⟩ := h <;> rfl

theorem blockNext_busy {s u : State} (h : s.blockNext u) : u.work.phase = .busy := by
  rw [blockNext_frame h]
  exact h.1

/-! ### The decoders -/

/-- Every word the decoder reads from CMD is one of the five command rows. -/
theorem decodeCommand_cases (w : Word) :
    decodeCommand w = .pack ∨ decodeCommand w = .encode ∨ decodeCommand w = .decode ∨
    (∃ r, decodeCommand w = .illegalCmdOp0 r) ∨ ∃ r op, decodeCommand w = .illegalCmdRsvd r op := by
  simp only [decodeCommand]
  split_ifs <;> simp

/-- Everything the token decoder can answer: one of the seven patterns of R53 to R57, and where it stood. -/
theorem decodeToken_cases {e : Byte} {bs : List Byte} {i : Instr} {rest : List Byte}
    (h : decodeToken e bs = .ok (i, rest)) :
    (∃ b, b ≠ e ∧ i = .lit b ∧ bs = b :: rest) ∨
    (i = .truncCount e ∧ bs = [e] ∧ rest = []) ∨
    (i = .illegalCount0 e ∧ bs = e :: 0 :: rest) ∨
    (∃ c, c ≠ 0 ∧ i = .truncValue e c ∧ bs = [e, c] ∧ rest = []) ∨
    (i = .esc e ∧ bs = e :: 1 :: e :: rest) ∨
    (∃ v, v ≠ e ∧ i = .illegalEscValue e v ∧ bs = e :: 1 :: v :: rest) ∨
    (∃ c v, c ≠ 0 ∧ c ≠ 1 ∧ i = .run e c v ∧ bs = e :: c :: v :: rest) := by
  rcases bs with _ | ⟨b, bs⟩
  · cases h
  by_cases hb : b = e
  case neg => simp_all [decodeToken]
  subst hb
  rcases bs with _ | ⟨c, bs⟩
  · simp_all [decodeToken]
  by_cases hc : c = 0
  · simp_all [decodeToken]
  rcases bs with _ | ⟨v, bs⟩
  · simp_all [decodeToken]
  by_cases hc1 : c = 1
  · by_cases hv : v = b <;> simp_all [decodeToken]
  · simp_all [decodeToken]

/-! ### Registers and STATUS -/

/-- A host write of a register leaves the result registers alone. -/
theorem Registers.set_frame (r : RegName) (v : Word) (k : Registers) :
    (k.set r v).result = k.result ∧ (k.set r v).outLen = k.outLen ∧
      (k.set r v).errOffset = k.errOffset := by
  cases r <;> exact ⟨rfl, rfl, rfl⟩

/-- No register has an index above 8 (R25). -/
theorem ofIndex_eq_none {index : Nat} (h : 8 < index) : RegName.ofIndex index = none := by
  obtain ⟨k, rfl⟩ := Nat.exists_eq_add_of_lt h
  rw [Nat.add_comm 8 k, Nat.add_assoc]
  rfl

theorem statusWord_toNat (r : ResultCode) (p : Phase) :
    (statusWord r p).toNat = 16 * r.code.toNat + if p = .busy then 1 else 0 := by
  cases r <;> cases p <;> rfl

theorem statusWord_result (r : ResultCode) (p : Phase) : (statusWord r p).extractLsb' 4 4 = r.code := by
  cases r <;> cases p <;> rfl

theorem statusWord_busy (r : ResultCode) (p : Phase) : (statusWord r p).extractLsb' 0 1 = p.busyBit := by
  cases r <;> cases p <;> rfl

theorem code_le_seven (r : ResultCode) : r.code.toNat ≤ 7 := by
  cases r <;> decide

/-! ### Buffers and the bytes of IN before the end of the input -/

theorem store_buffersOk {s : State} {b : Buf} {o : Nat} (v : Byte) (ho : o < s.cap b) (h : s.buffersOk) :
    (s.store b o v).buffersOk := by
  obtain ⟨hiwf, howf, hib, hob⟩ := h
  cases b with
  | inBuf => exact ⟨Memory.write_wf hiwf o v, howf, Memory.write_below hib ho v, hob⟩
  | outBuf => exact ⟨hiwf, Memory.write_wf howf o v, hib, Memory.write_below hob ho v⟩

theorem completionOut_below {spoiled : Bool} {code : ResultCode} {acc : List Byte} {cap : Nat}
    (h : code = .ok → acc.length ≤ cap) (d : Draw) : (completionOut spoiled code acc d).below cap := by
  unfold completionOut
  split
  next hok => exact Memory.ofBytes_below (h hok.2) d
  next => exact Memory.unspecified_below d cap

@[simp] theorem Memory.write_epoch (m : Memory) (a : Nat) (b : Byte) : (m.write a b).epoch = m.epoch := rfl

@[simp] theorem State.store_inBuf_epoch (s : State) (b : Buf) (o : Nat) (v : Byte) :
    (s.store b o v).inBuf.epoch = s.inBuf.epoch := by
  cases b <;> rfl

@[simp] theorem State.store_outBuf_epoch (s : State) (b : Buf) (o : Nat) (v : Byte) :
    (s.store b o v).outBuf.epoch = s.outBuf.epoch := by
  cases b <;> rfl

@[simp] theorem completionOut_epoch (spoiled : Bool) (code : ResultCode) (acc : List Byte) (d : Draw) :
    (completionOut spoiled code acc d).epoch = d := by
  unfold completionOut
  split <;> rfl

theorem window_length (k : Nat) (s : State) :
    (s.window k).length = min k (s.work.n.toNat - s.work.pc) :=
  Memory.bytes_length _ _ _

/-- A window that is not empty reaches no further than the input. -/
theorem pc_add_le_of_window {s : State} {k : Nat} {b : Byte} {bs : List Byte} (hw : s.window k = b :: bs)
    {j : Nat} (hj : j ≤ (b :: bs).length) : s.work.pc + j ≤ s.work.n.toNat := by
  have hlen : (b :: bs).length = min k (s.work.n.toNat - s.work.pc) := hw ▸ window_length k s
  have hpos : 0 < (b :: bs).length := Nat.succ_pos _
  omega

theorem cappedRun_le_length (bs : List Byte) : cappedRun bs ≤ bs.length := by
  cases bs with
  | nil => exact Nat.le_refl 0
  | cons v rest =>
    have := (List.takeWhile_sublist (p := (· == v)) (l := rest)).length_le
    simp only [cappedRun, List.length_cons]
    omega

/-- The ENCODE cursor moves over bytes it has read. -/
theorem tokenAdvance_le_length (m : Word) (v : Byte) (rest : List Byte) :
    tokenAdvance m (cappedRun (v :: rest)) ≤ (v :: rest).length := by
  unfold tokenAdvance
  split
  · exact cappedRun_le_length _
  · exact Nat.succ_le_of_lt (Nat.succ_pos _)

/-! ### The PACK cursor -/

/-- The PACK cursor moves no other part of the working state. -/
theorem nextGroup_frame (k : Working) : k.nextGroup = { k with y := k.nextGroup.y, g := k.nextGroup.g } := by
  rcases nextGroup_cases k with ⟨_, h⟩ | ⟨_, h⟩ <;> rw [h]

theorem emitPacked_frame (b : Byte) (s : State) :
    s.emitPacked b = { s with work := { s.work with
      y := s.work.nextGroup.y, g := s.work.nextGroup.g, acc := s.work.acc ++ [b] } } := by
  unfold State.emitPacked
  rw [nextGroup_frame]

/-- The PACK cursor after a byte is one group further on, at the start of the next row past the last group. -/
theorem nextGroup_packOk {k : Working} {cap : Nat} (b : Byte) (h : k.packOk cap) (hy : k.y < k.h.toNat)
    (hw : k.w.toNat / 8 ≠ 0) : Working.packOk { k.nextGroup with acc := k.acc ++ [b] } cap := by
  obtain ⟨hw8, hcap, hacc, _, hg, _⟩ := h
  rcases nextGroup_cases k with ⟨hend, hk⟩ | ⟨hmid, hk⟩ <;> rw [hk]
  · refine ⟨hw8, hcap, ?_, hy, .inl (Nat.pos_of_ne_zero hw), fun _ => rfl⟩
    simp only [List.length_append, List.length_singleton, hacc, Nat.succ_mul]
    omega
  · refine ⟨hw8, hcap, ?_, Nat.le_of_lt hy, .inl ?_, fun h => absurd h (Nat.ne_of_lt hy)⟩
    · simp only [List.length_append, List.length_singleton, hacc]
      omega
    · show k.g + 1 < k.w.toNat / 8
      omega

end Sys2Proof.Machine
end

section
/-!
PROOFS. What a step can do: one relation for the host's moves and one for the internal steps, each with
the lemma that every move with a next state is in it.
-/
namespace Sys2Proof.Machine

/-! ### What one move of the host can do -/

/-- Everything a host move that has a next state can leave (R108 to R112, R139, R142). -/
inductive HostEffect (s : State) : State → Prop
  | write (idle : s.work.phase = .idle) (r : RegName) (v : Word) :
      HostEffect s { s with reg := s.reg.set r v }
  | start (idle : s.work.phase = .idle) (op : Op) : HostEffect s (s.start op)
  | illegal (idle : s.work.phase = .idle) : HostEffect s s.illegalCommand
  | store (idle : s.work.phase = .idle) (b : Buf) (o : Nat) (v : Byte) (inRange : o < s.cap b) :
      HostEffect s (s.store b o v)
  | bind (idle : s.work.phase = .idle) (src : PixelSource) : HostEffect s { s with source := src }
  | hazard (busy : s.work.phase = .busy) (h : Hazard) : HostEffect s (s.hazard h)
  | bufferHazard (busy : s.work.phase = .busy) (b : Buf) (o : Nat) : HostEffect s (s.bufferHazard b o)
  | bindingHazard (busy : s.work.phase = .busy) : HostEffect s s.bindingHazard
  /-- A read, its answer and the host's remaining moves on record. -/
  | read (obs : List Observation) (evs : List Event) (d : Draw)
      (drawn : d = s.draws ∨ d = s.draws.plus 1) :
      HostEffect s { s with observed := obs, events := evs, draws := d }
  | reset : HostEffect s s.resetNow

/-- A command write is a hazard while BUSY, a start or the completion of an illegal word while idle. -/
theorem commandWrite_effect {s : State} {body : State → State}
    (h : s.work.phase = .idle → HostEffect s (body s)) : HostEffect s (s.commandWrite body) := by
  unfold State.commandWrite
  split
  next hb => exact .hazard hb _
  next hb => exact h (Phase.idle_of_ne_busy hb)

theorem exec_command_effect {s t : State} (w : Word) (h : exec (decodeCommand w) s = .next t) :
    HostEffect s t := by
  rcases decodeCommand_cases w with hd | hd | hd | ⟨r, hd⟩ | ⟨r, op, hd⟩ <;> rw [hd] at h <;> cases h
  · exact commandWrite_effect fun hi => .start hi .pack
  · exact commandWrite_effect fun hi => .start hi .encode
  · exact commandWrite_effect fun hi => .start hi .decode
  · exact commandWrite_effect .illegal
  · exact commandWrite_effect .illegal

theorem writeReg_effect (r : RegName) (v : Word) (s : State) : HostEffect s (s.writeReg r v) := by
  unfold State.writeReg
  split
  next hb => exact .hazard hb _
  next hb => exact .write (Phase.idle_of_ne_busy hb) r v

theorem bindNow_effect (src : PixelSource) (s : State) : HostEffect s (s.bindNow src) := by
  unfold State.bindNow
  split
  next hb => exact .bindingHazard hb
  next hb => exact .bind (Phase.idle_of_ne_busy hb) src

/-- A read of a register, and the moves the host makes of its answer. -/
theorem readObserved_push_effect (r : RegName) (evs : List Event) (s : State) :
    HostEffect s ((s.readObserved r).push evs) := by
  unfold State.readObserved
  rcases readReg_frame r s with h | h <;> rw [h]
  · exact .read _ _ _ (.inl rfl)
  · exact .read _ _ _ (.inr rfl)

theorem readByteObserved_push_effect (b : Buf) (o : Nat) (evs : List Event) (s : State) :
    HostEffect s ((s.readByteObserved b o).push evs) := by
  unfold State.readByteObserved
  rcases readByte_frame b o s with h | h <;> rw [h]
  · exact .read _ _ _ (.inl rfl)
  · exact .read _ _ _ (.inr rfl)

theorem wrMove_effect {s t : State} (index : Nat) (v : Word) (h : (s.wrMove index v).outcome = .next t) :
    HostEffect s t := by
  unfold State.wrMove at h
  split at h
  next => cases h
  next r _ =>
    split at h
    next => exact exec_command_effect v h
    next => cases h; exact writeReg_effect r v s

theorem rdMove_effect {s t : State} (index : Nat) (h : (s.rdMove index).outcome = .next t) :
    HostEffect s t := by
  unfold State.rdMove at h
  split at h
  next => cases h
  next r _ => cases h; exact readObserved_push_effect r [] s

theorem wrbMove_effect {s t : State} (b : Buf) (o : Nat) (v : Byte)
    (h : (s.wrbMove b o v).outcome = .next t) : HostEffect s t := by
  unfold State.wrbMove at h
  split at h
  next hb => cases h; exact .bufferHazard hb b o
  next hb =>
    split at h
    next ho => cases h; exact .store (Phase.idle_of_ne_busy hb) b o v ho
    next => cases h

theorem rdbMove_effect {s t : State} (b : Buf) (o : Nat) (h : (s.rdbMove b o).outcome = .next t) :
    HostEffect s t := by
  unfold State.rdbMove at h
  split at h
  next => cases h; exact readByteObserved_push_effect b o [] s
  next => cases h

theorem pollNow_effect (s : State) : HostEffect s s.pollNow := by
  unfold State.pollNow
  split
  next => exact readObserved_push_effect .status [.poll] s
  next => exact readObserved_push_effect .status [] s

theorem copyMove_effect {s t : State} (o : Nat) (n : Word) (h : (s.copyMove o n).outcome = .next t) :
    HostEffect s t := by
  unfold State.copyMove at h
  split at h
  next =>
    split at h
    next => cases h; exact readByteObserved_push_effect .outBuf o _ s
    next => cases h
  next => cases h; exact writeReg_effect .inLen n s

/-- A host move that has a next state has one of the effects of `HostEffect`. -/
theorem hostMove_effect {s t : State} {ev : Event} (h : (s.hostMove ev).outcome = .next t) :
    HostEffect s t := by
  cases ev with
  | wr index v => exact wrMove_effect index v h
  | rd index => exact rdMove_effect index h
  | wrb b o v => exact wrbMove_effect b o v h
  | rdb b o => exact rdbMove_effect b o h
  | otherWidth bits => cases h
  | bind src => cases h; exact bindNow_effect src s
  | poll => cases h; exact pollNow_effect s
  | copy => cases h; exact readObserved_push_effect .outLen _ s
  | copyFrom o n => exact copyMove_effect o n h
  | reset => cases h; exact .reset

/-! ### What one internal step of the block can do -/

/-- What the start checks establish of the latched parameters (R113 to R115). -/
def Working.admitted (k : Working) (inCap outCap : Nat) : Prop :=
  match k.opl with
  | .pack => k.w.toNat % 8 = 0 ∧ k.h.toNat * (k.w.toNat / 8) ≤ outCap
  | .encode => 2 ≤ k.m.toNat ∧ k.n.toNat ≤ inCap
  | .decode => k.n.toNat ≤ inCap

/-- The errors and offsets a running command can raise: offset 0, or one inside the input of a DECODE (R24,
R121). -/
def Working.canRaise (k : Working) (code : ResultCode) (off : Nat) : Prop :=
  code ≠ .ok ∧
    (off = 0 ∨
      (code = .truncatedStream ∨ code = .malformedToken) ∧ k.checked = true ∧ k.opl = .decode ∧
        off ≤ k.n.toNat)

/-- Everything an internal step of a BUSY block can leave (R116, R117). -/
inductive BlockEffect (s : State) : State → Prop
  | pass (unchecked : s.work.checked = false)
      (admitted : s.work.admitted s.cfg.inCap.val s.cfg.outCap.val) : BlockEffect s s.pass
  | finish (checked : s.work.checked = true) : BlockEffect s (s.complete .ok 0)
  | fail (code : ResultCode) (off : Nat) (allowed : s.work.canRaise code off) :
      BlockEffect s (s.raise code off)
  | append (out : List Byte) (k : Nat) (checked : s.work.checked = true) (stream : s.work.opl ≠ .pack)
      (room : s.work.acc.length + out.length ≤ s.cfg.outCap.val)
      (inside : s.work.pc + k ≤ s.work.n.toNat) :
      BlockEffect s { s with work := { s.work with acc := s.work.acc ++ out, pc := s.work.pc + k } }
  | packed (b : Byte) (checked : s.work.checked = true) (pack : s.work.opl = .pack)
      (rowLeft : s.work.y < s.work.h.toNat) (groups : s.work.w.toNat / 8 ≠ 0) :
      BlockEffect s (s.emitPacked b)

theorem canRaise_zero {k : Working} {code : ResultCode} (hok : code ≠ .ok) : k.canRaise code 0 :=
  ⟨hok, .inl rfl⟩

theorem startChecks_effect {s : State} (hc : s.work.checked = false) : BlockEffect s s.startChecks := by
  have fail {code : ResultCode} (hok : code ≠ .ok) : BlockEffect s (s.raise code 0) :=
    .fail code 0 (canRaise_zero hok)
  have pass : s.work.admitted s.cfg.inCap.val s.cfg.outCap.val → BlockEffect s s.pass := .pass hc
  simp only [Working.admitted] at pass
  unfold State.startChecks
  cases hop : s.work.opl <;> simp only [hop] at pass ⊢
  case pack =>
    split_ifs with hw ho
    · exact fail nofun
    · exact fail nofun
    · exact pass ⟨by omega, by omega⟩
  case encode =>
    split_ifs with hm hn
    · exact fail nofun
    · exact fail nofun
    · exact pass ⟨by omega, by omega⟩
  case decode =>
    split_ifs with hn
    · exact fail nofun
    · exact pass (by omega)

/-- Appending output either fits or raises CapacityExceeded. -/
theorem emit_effect {s : State} (hc : s.work.checked = true) (hop : s.work.opl ≠ .pack) (out : List Byte)
    {k : Nat} (hk : s.work.pc + k ≤ s.work.n.toNat) : BlockEffect s (s.emit out k) := by
  rcases emit_cases s out k with ⟨hroom, he⟩ | ⟨_, he⟩ <;> rw [he]
  · exact .append out k hc hop hroom hk
  · exact .fail .capacityExceeded 0 (canRaise_zero nofun)

theorem packMove_effect {s t : State} (hc : s.work.checked = true) (hop : s.work.opl = .pack)
    (h : s.packMove.outcome = .next t) : BlockEffect s t := by
  unfold State.packMove at h
  split at h
  next => cases h; exact .finish hc
  next hloop =>
    cases h
    obtain ⟨hy, hw⟩ := not_or.1 hloop
    exact .packed _ hc hop (Nat.lt_of_not_le hy) hw

theorem encodeMove_effect {s t : State} (hc : s.work.checked = true) (hop : s.work.opl = .encode)
    (h : s.encodeMove.outcome = .next t) : BlockEffect s t := by
  unfold State.encodeMove at h
  split at h
  next => cases h; exact .finish hc
  next v rest hwin =>
    cases h
    exact emit_effect hc (by simp [hop]) _ (pc_add_le_of_window hwin (tokenAdvance_le_length _ v rest))

/-- A decoded token appends its output or raises an error, its cursor or offset inside the input. -/
theorem exec_decodeToken_effect {s t : State} {i : Instr} {rest : List Byte}
    (hc : s.work.checked = true) (hop : s.work.opl = .decode)
    (hf : s.fetchToken = .ok (i, rest)) (h : exec i s = .next t) : BlockEffect s t := by
  have emits (out : List Byte) {k : Nat} (hk : s.work.pc + k ≤ s.work.n.toNat) :
      BlockEffect s (s.emit out k) := emit_effect hc (by simp [hop]) out hk
  have malformed {k : Nat} (hk : s.work.pc + k ≤ s.work.n.toNat) :
      BlockEffect s (s.raise .malformedToken (s.work.pc + k)) :=
    .fail _ _ ⟨nofun, .inr ⟨.inr rfl, hc, hop, hk⟩⟩
  have truncated {k : Nat} (hk : s.work.pc + k ≤ s.work.n.toNat) :
      BlockEffect s (s.raise .truncatedStream (s.work.pc + k)) :=
    .fail _ _ ⟨nofun, .inr ⟨.inl rfl, hc, hop, hk⟩⟩
  rcases decodeToken_cases hf with ⟨b, _, rfl, hw⟩ | ⟨rfl, hw, _⟩ | ⟨rfl, hw⟩ | ⟨c, _, rfl, hw, _⟩ |
    ⟨rfl, hw⟩ | ⟨v, _, rfl, hw⟩ | ⟨c, v, _, _, rfl, hw⟩ <;> cases h
  · exact emits _ (pc_add_le_of_window hw (by simp))
  · exact truncated (pc_add_le_of_window hw (by simp))
  · exact malformed (pc_add_le_of_window hw (by simp))
  · exact truncated (pc_add_le_of_window hw (by simp))
  · exact emits _ (pc_add_le_of_window hw (by simp))
  · exact malformed (pc_add_le_of_window hw (by simp))
  · exact emits _ (pc_add_le_of_window hw (by simp))

theorem decodeMove_effect {s t : State} (hc : s.work.checked = true) (hop : s.work.opl = .decode)
    (h : s.decodeMove.outcome = .next t) : BlockEffect s t := by
  unfold State.decodeMove at h
  split at h
  next => cases h; exact .finish hc
  next hf => exact exec_decodeToken_effect hc hop hf h

/-- An internal step has one of the effects of `BlockEffect`. -/
theorem blockMove_effect {s t : State} (h : s.blockMove.outcome = .next t) : BlockEffect s t := by
  unfold State.blockMove at h
  split at h
  next hc => cases h; exact startChecks_effect hc
  next hc =>
    replace hc := Bool.eq_true_of_not_eq_false hc
    cases hop : s.work.opl <;> rw [hop] at h
    case pack => exact packMove_effect hc hop h
    case encode => exact encodeMove_effect hc hop h
    case decode => exact decodeMove_effect hc hop h

/-! ### What one step can do -/

/-- A step that has a next state waits, makes a host move, or makes an internal step. -/
theorem step_effect {s t : State} (h : step s = .next t) :
    t = s ∨ (∃ ev u, s.hostNext ev u ∧ HostEffect u t) ∨ (∃ u, s.blockNext u ∧ BlockEffect u t) := by
  rcases step_cases s with ⟨_, _, hs⟩ | ⟨ev, u, hn, hs⟩ | ⟨u, hn, hs⟩ <;> rw [hs] at h
  · cases h; exact .inl rfl
  · exact .inr (.inl ⟨ev, u, hn, hostMove_effect h⟩)
  · exact .inr (.inr ⟨u, hn, blockMove_effect h⟩)

end Sys2Proof.Machine
end

section
/-!
PROOFS. The invariant: it holds after reset and every step keeps it (O42, O43).
-/
namespace Sys2Proof.Machine

/-! ### The invariant -/

theorem resetWith_inv (k : Nat) (c : Config) : (State.resetWith k c).Inv :=
  ⟨reset_buffersOk k c, nofun, nofun,
    fun _ => ⟨Nat.zero_le _, Nat.zero_le _, rfl, fun _ => rfl, fun _ _ => rfl⟩⟩

/-- The invariant speaks of neither the pixel source nor the free values nor anything of the host's. -/
theorem inv_of_host_sides {s : State} (h : s.Inv) (src : PixelSource) (evs : List Event)
    (turns : List Agent) (obs : List Observation) (d : Draw) :
    State.Inv { s with source := src, events := evs, sched := turns, observed := obs, draws := d } := h

theorem hostNext_inv {s u : State} {ev : Event} (hn : s.hostNext ev u) (h : s.Inv) : u.Inv := by
  rw [hostNext_frame hn]
  exact inv_of_host_sides h _ _ _ _ _

theorem blockNext_inv {s u : State} (hn : s.blockNext u) (h : s.Inv) : u.Inv := by
  rw [blockNext_frame hn]
  exact inv_of_host_sides h _ _ _ _ _

/-! #### The parts of the invariant, by phase and operation -/

theorem runningOk_unchecked {s : State} (hc : s.work.checked = false) :
    s.runningOk ↔ s.work.err = none ∧ s.work.fresh := by
  simp only [State.runningOk, hc, if_true]

theorem runningOk_pack {s : State} (hc : s.work.checked = true) (hop : s.work.opl = .pack) :
    s.runningOk ↔ s.work.err = none ∧ s.work.packOk s.cfg.outCap.val := by
  simp only [State.runningOk, hc, hop, Bool.true_eq_false, if_false]

theorem runningOk_encode {s : State} (hc : s.work.checked = true) (hop : s.work.opl = .encode) :
    s.runningOk ↔ s.work.err = none ∧ 2 ≤ s.work.m.toNat ∧
      s.work.streamOk s.cfg.inCap.val s.cfg.outCap.val := by
  simp only [State.runningOk, hc, hop, Bool.true_eq_false, if_false]

theorem runningOk_decode {s : State} (hc : s.work.checked = true) (hop : s.work.opl = .decode) :
    s.runningOk ↔ s.work.err = none ∧ s.work.streamOk s.cfg.inCap.val s.cfg.outCap.val := by
  simp only [State.runningOk, hc, hop, Bool.true_eq_false, if_false]

theorem resultOk_busy {s : State} (hb : s.work.phase = .busy) :
    s.resultOk ↔ s.reg.outLen.toNat ≤ s.cfg.outCap.val ∧ s.reg.errOffset.toNat ≤ s.cfg.inCap.val ∧
      s.reg.result = .none := by
  simp only [State.resultOk, hb]

theorem resultOk_idle {s : State} (hi : s.work.phase = .idle) :
    s.resultOk ↔ s.reg.outLen.toNat ≤ s.cfg.outCap.val ∧ s.reg.errOffset.toNat ≤ s.cfg.inCap.val ∧
      s.work.acc = [] ∧ (s.reg.result ≠ .ok → s.reg.outLen = 0) ∧
      (s.reg.result ≠ .truncatedStream → s.reg.result ≠ .malformedToken → s.reg.errOffset = 0) := by
  simp only [State.resultOk, hi]

theorem packOk_of_fresh {k : Working} {cap : Nat} (hf : k.fresh) (hw : k.w.toNat % 8 = 0)
    (hcap : k.h.toNat * (k.w.toNat / 8) ≤ cap) : k.packOk cap := by
  obtain ⟨hacc, _, hy, hg⟩ := hf
  refine ⟨hw, hcap, ?_, ?_, ?_, fun _ => hg⟩
  · rw [hacc, hy, hg, Nat.zero_mul]
    rfl
  · rw [hy]
    exact Nat.zero_le _
  · omega

theorem streamOk_of_fresh {k : Working} {inCap outCap : Nat} (hf : k.fresh) (hn : k.n.toNat ≤ inCap) :
    k.streamOk inCap outCap := by
  obtain ⟨hacc, hpc, _, _⟩ := hf
  exact ⟨hn, by simp [hpc], by simp [hacc]⟩

/-- A PACK past its start checks has at most as many bytes as the whole image. -/
theorem packOk_acc_le {k : Working} {cap : Nat} (h : k.packOk cap) : k.acc.length ≤ cap := by
  obtain ⟨_, hcap, hacc, hy, hg, hlast⟩ := h
  rw [hacc]
  refine le_trans ?_ hcap
  rcases Nat.eq_or_lt_of_le hy with hy | hy
  · rw [hlast hy, hy, Nat.add_zero]
  · calc k.y * (k.w.toNat / 8) + k.g ≤ (k.y + 1) * (k.w.toNat / 8) := by rw [Nat.succ_mul]; omega
      _ ≤ k.h.toNat * (k.w.toNat / 8) := Nat.mul_le_mul_right _ hy

/-- The output of a running command fits OUT. -/
theorem runningOk_acc_le {s : State} (h : s.runningOk) (hc : s.work.checked = true) :
    s.work.acc.length ≤ s.cfg.outCap.val := by
  cases hop : s.work.opl with
  | pack => exact packOk_acc_le ((runningOk_pack hc hop).1 h).2
  | encode =>
    obtain ⟨_, _, _, _, hacc⟩ := (runningOk_encode hc hop).1 h
    exact hacc
  | decode =>
    obtain ⟨_, _, _, hacc⟩ := (runningOk_decode hc hop).1 h
    exact hacc

/-! #### Completions -/

/-- A completion whose output fits OUT, or an error whose offset lies in IN, meets the invariant. -/
theorem complete_inv {s : State} {code : ResultCode} {off : Nat} (hbuf : s.buffersOk)
    (hspoil : s.spoiled = true → s.faults ≠ []) (hout : code = .ok → s.work.acc.length ≤ s.cfg.outCap.val)
    (hoff : off ≤ s.cfg.inCap.val) (hzero : off ≠ 0 → code = .truncatedStream ∨ code = .malformedToken) :
    (s.complete code off).Inv := by
  obtain ⟨hiwf, _, hibelow, _⟩ := hbuf
  refine ⟨⟨hiwf, completionOut_wf _ _ _ _, hibelow, completionOut_below hout _⟩, nofun, nofun,
    fun hclean => ?_⟩
  have hsp : s.spoiled = false := Bool.eq_false_of_not_eq_true fun h => hspoil h hclean
  refine (resultOk_idle rfl).2 ?_
  by_cases hok : code = .ok
  · subst hok
    simp only [State.complete_reg, State.complete_cfg, hsp, completionRegisters_ok]
    refine ⟨le_trans ?_ (hout rfl), Nat.zero_le _, rfl, fun h => absurd rfl h, fun _ _ => trivial⟩
    exact BitVec.toNat_ofNat .. ▸ Nat.mod_le _ _
  · simp only [State.complete_reg, State.complete_cfg, hsp, completionRegisters_error hok]
    refine ⟨Nat.zero_le _, le_trans ?_ hoff, rfl, fun _ => trivial, fun ht hm => ?_⟩
    · exact BitVec.toNat_ofNat .. ▸ Nat.mod_le _ _
    · have hoff0 : off = 0 := by_contra fun h => (hzero h).elim ht hm
      rw [hoff0]
      rfl

/-! #### Internal steps -/

theorem pass_inv {s : State} (hb : s.work.phase = .busy) (hc : s.work.checked = false)
    (ha : s.work.admitted s.cfg.inCap.val s.cfg.outCap.val) (h : s.Inv) : s.pass.Inv := by
  obtain ⟨hbuf, hrun, hspoil, hres⟩ := h
  obtain ⟨herr, hfresh⟩ := (runningOk_unchecked hc).1 (hrun hb)
  refine ⟨hbuf, fun _ => ?_, hspoil, hres⟩
  unfold Working.admitted at ha
  cases hop : s.work.opl <;> rw [hop] at ha
  case pack =>
    obtain ⟨hw, hcap⟩ := ha
    exact Iff.mpr (runningOk_pack rfl hop) ⟨herr, packOk_of_fresh hfresh hw hcap⟩
  case encode =>
    obtain ⟨hm, hn⟩ := ha
    exact Iff.mpr (runningOk_encode rfl hop) ⟨herr, hm, streamOk_of_fresh hfresh hn⟩
  case decode => exact Iff.mpr (runningOk_decode rfl hop) ⟨herr, streamOk_of_fresh hfresh ha⟩

theorem raise_inv {s : State} {code : ResultCode} {off : Nat} (hb : s.work.phase = .busy)
    (ha : s.work.canRaise code off) (h : s.Inv) : (s.raise code off).Inv := by
  obtain ⟨hbuf, hrun, hspoil, _⟩ := h
  obtain ⟨hok, hoff⟩ := ha
  refine complete_inv (s := { s with work := { s.work with err := some (code, off) } }) hbuf
    (fun hs => (hspoil hs).2) (fun h => absurd h hok) ?_ ?_
  · rcases hoff with rfl | ⟨_, hc, hop, hle⟩
    · exact Nat.zero_le _
    · obtain ⟨_, hn, _⟩ := (runningOk_decode hc hop).1 (hrun hb)
      exact le_trans hle hn
  · rcases hoff with rfl | ⟨hcode, _⟩
    · exact fun h => absurd rfl h
    · exact fun _ => hcode

/-- Output appended to a stream command's ACC. -/
theorem append_inv {s : State} {out : List Byte} {k : Nat} (hb : s.work.phase = .busy)
    (hc : s.work.checked = true) (hop : s.work.opl ≠ .pack)
    (hroom : s.work.acc.length + out.length ≤ s.cfg.outCap.val)
    (hin : s.work.pc + k ≤ s.work.n.toNat) (h : s.Inv) :
    State.Inv { s with work := { s.work with acc := s.work.acc ++ out, pc := s.work.pc + k } } := by
  obtain ⟨hbuf, hrun, hspoil, hres⟩ := h
  rw [← List.length_append] at hroom
  refine ⟨hbuf, fun _ => ?_, hspoil, fun hcl => Iff.mpr (resultOk_busy hb) ((resultOk_busy hb).1 (hres hcl))⟩
  cases hopl : s.work.opl with
  | pack => exact absurd hopl hop
  | encode =>
    obtain ⟨herr, hm, hn, _, _⟩ := (runningOk_encode hc hopl).1 (hrun hb)
    exact Iff.mpr (runningOk_encode hc hopl) ⟨herr, hm, hn, hin, hroom⟩
  | decode =>
    obtain ⟨herr, hn, _, _⟩ := (runningOk_decode hc hopl).1 (hrun hb)
    exact Iff.mpr (runningOk_decode hc hopl) ⟨herr, hn, hin, hroom⟩

theorem emitPacked_inv {s : State} (b : Byte) (hb : s.work.phase = .busy)
    (hc : s.work.checked = true) (hop : s.work.opl = .pack) (hy : s.work.y < s.work.h.toNat)
    (hw : s.work.w.toNat / 8 ≠ 0) (h : s.Inv) : (s.emitPacked b).Inv := by
  obtain ⟨hbuf, hrun, hspoil, hres⟩ := h
  obtain ⟨herr, hloop⟩ := (runningOk_pack hc hop).1 (hrun hb)
  have hpack := nextGroup_packOk b hloop hy hw
  rw [nextGroup_frame] at hpack
  rw [emitPacked_frame]
  exact ⟨hbuf, fun _ => Iff.mpr (runningOk_pack hc hop) ⟨herr, hpack⟩, hspoil,
    fun hcl => Iff.mpr (resultOk_busy hb) ((resultOk_busy hb).1 (hres hcl))⟩

/-- Every internal step keeps the invariant. -/
theorem blockEffect_inv {s t : State} (he : BlockEffect s t) (hb : s.work.phase = .busy) (h : s.Inv) :
    t.Inv := by
  cases he with
  | pass hc ha => exact pass_inv hb hc ha h
  | finish hc =>
    obtain ⟨hbuf, hrun, hspoil, _⟩ := h
    exact complete_inv hbuf (fun hs => (hspoil hs).2) (fun _ => runningOk_acc_le (hrun hb) hc)
      (Nat.zero_le _) (fun h => absurd rfl h)
  | fail code off ha => exact raise_inv hb ha h
  | append out k hc hop hroom hin => exact append_inv hb hc hop hroom hin h
  | packed b hc hop hy hw => exact emitPacked_inv b hb hc hop hy hw h

/-! #### Host moves -/

theorem set_inv {s : State} (r : RegName) (v : Word) (h : s.Inv) :
    State.Inv { s with reg := s.reg.set r v } := by
  obtain ⟨hbuf, hrun, hspoil, hres⟩ := h
  obtain ⟨hr, ho, he⟩ := Registers.set_frame r v s.reg
  refine ⟨hbuf, hrun, hspoil, fun hcl => ?_⟩
  simpa only [State.resultOk, hr, ho, he] using hres hcl

/-- A start sets the cursors to 0 and RESULT to NONE. -/
theorem start_inv {s : State} (op : Op) (h : s.Inv) : (s.start op).Inv := by
  obtain ⟨hbuf, _, _, hres⟩ := h
  refine ⟨hbuf, fun _ => ⟨rfl, rfl, rfl, rfl, rfl⟩, nofun, fun hcl => ?_⟩
  obtain ⟨hout, herr, _⟩ := hres hcl
  exact ⟨hout, herr, rfl⟩

theorem illegalCommand_inv {s : State} (h : s.Inv) : s.illegalCommand.Inv := by
  obtain ⟨hbuf, _, _, _⟩ := h
  exact complete_inv (s := { s with spoiled := false }) hbuf nofun nofun (Nat.zero_le _)
    (fun h => absurd rfl h)

theorem store_inv {s : State} {b : Buf} {o : Nat} (v : Byte) (ho : o < s.cap b) (h : s.Inv) :
    (s.store b o v).Inv := by
  obtain ⟨hbuf, hrun, hspoil, hres⟩ := h
  refine ⟨store_buffersOk v ho hbuf, ?_, ?_, ?_⟩ <;>
    simpa only [State.clean, State.runningOk, State.resultOk, State.store_work, State.store_cfg,
      State.store_reg, State.store_faults, State.store_spoiled]

/-- A hazard ends what the invariant says of the registers, and frees OUT; the running command stays as it is. -/
theorem hazard_inv {s : State} (hz : Hazard) (hb : s.work.phase = .busy) (h : s.Inv) :
    (s.hazard hz).Inv := by
  obtain ⟨⟨hiwf, _, hib, _⟩, hrun, _, _⟩ := h
  have hne : (s.hazard hz).faults ≠ [] := by simp
  refine ⟨⟨hiwf, Memory.unspecified_wf _, hib, Memory.unspecified_below _ _⟩, fun _ => hrun hb,
    fun hs => ⟨?_, hne⟩, fun hcl => absurd hcl hne⟩
  rw [State.hazard_spoiled] at hs
  simp [hs]

theorem bufferHazard_inv {s : State} (b : Buf) (o : Nat) (hb : s.work.phase = .busy) (h : s.Inv) :
    (s.bufferHazard b o).Inv := by
  have hz := hazard_inv (.bufferWrite b) hb h
  rcases bufferHazard_cases b o s with ⟨_, he⟩ | ⟨ho, he⟩ <;> rw [he]
  · exact hz
  · exact inv_of_host_sides (store_inv _ (by cases b <;> exact ho) hz) _ _ _ _ _

theorem resetNow_inv {s : State} : s.resetNow.Inv :=
  ⟨⟨Memory.unspecified_wf _, Memory.unspecified_wf _, Memory.unspecified_below _ _,
      Memory.unspecified_below _ _⟩, nofun, nofun,
    fun _ => ⟨Nat.zero_le _, Nat.zero_le _, rfl, fun _ => rfl, fun _ _ => rfl⟩⟩

/-- Every host move keeps the invariant. -/
theorem hostEffect_inv {s t : State} (he : HostEffect s t) (h : s.Inv) : t.Inv := by
  cases he with
  | write _ r v => exact set_inv r v h
  | start _ op => exact start_inv op h
  | illegal _ => exact illegalCommand_inv h
  | store _ b o v ho => exact store_inv v ho h
  | bind _ src => exact inv_of_host_sides h _ _ _ _ _
  | hazard hb hz => exact hazard_inv hz hb h
  | bufferHazard hb b o => exact bufferHazard_inv b o hb h
  | bindingHazard hb => exact inv_of_host_sides (hazard_inv .pixelBinding hb h) _ _ _ _ _
  | read obs evs d _ => exact inv_of_host_sides h _ _ _ _ _
  | reset => exact resetNow_inv

/-- Settles O43: every effect of a host move and of an internal step keeps the invariant. -/
theorem everyStepKeepsInvariant : Obligations.EveryStepKeepsInvariant := by
  unfold Obligations.EveryStepKeepsInvariant
  intro s t h hstep
  rcases step_effect hstep with rfl | ⟨ev, u, hn, he⟩ | ⟨u, hn, he⟩
  · exact h
  · exact hostEffect_inv he (hostNext_inv hn h)
  · exact blockEffect_inv he (blockNext_busy hn) (blockNext_inv hn h)

/-- Settles O42: buffers empty, block idle, result registers 0. -/
theorem invariantAfterReset : Obligations.InvariantAfterReset := by
  unfold Obligations.InvariantAfterReset
  exact ⟨resetWith_inv, resetWith_inv 0 Config.standard⟩

end Sys2Proof.Machine
end

section
/-!
PROOFS. What a step leaves alone: FAULT, IN and the parameters, the streams of free values (O35, O40, O58).
-/
namespace Sys2Proof.Machine

/-! ### FAULT -/

/-- A host move only adds to FAULT, and only while BUSY. -/
theorem hostEffect_faults {s t : State} (he : HostEffect s t) :
    t.faults = s.faults ∨ s.work.phase = .busy ∧ s.faults <+: t.faults := by
  cases he with
  | hazard hb hz => exact .inr ⟨hb, List.prefix_append _ _⟩
  | bufferHazard hb b o =>
    rw [bufferHazard_faults]
    exact .inr ⟨hb, List.prefix_append _ _⟩
  | bindingHazard hb =>
    rw [bindingHazard_faults]
    exact .inr ⟨hb, List.prefix_append _ _⟩
  | store _ b o v => exact .inl (State.store_faults s b o v)
  | write => exact .inl rfl
  | start => exact .inl rfl
  | illegal => exact .inl rfl
  | bind => exact .inl rfl
  | read => exact .inl rfl
  | reset => exact .inl rfl

/-! ### The frame of an internal step -/

/-- What no internal step touches: IN, the parameters and their registers, the pixel source, FAULT and the
host's lists (R29, R47). -/
theorem blockEffect_frame {s t : State} (he : BlockEffect s t) :
    t.inBuf = s.inBuf ∧ t.cfg = s.cfg ∧
    t.reg = { s.reg with result := t.reg.result, outLen := t.reg.outLen, errOffset := t.reg.errOffset } ∧
    t.source = s.source ∧ t.faults = s.faults ∧ t.events = s.events ∧ t.observed = s.observed := by
  cases he with
  | pass => exact ⟨rfl, rfl, rfl, rfl, rfl, rfl, rfl⟩
  | finish => exact ⟨rfl, rfl, completionRegisters_frame _ _ _ _ _ _, rfl, rfl, rfl, rfl⟩
  | fail => exact ⟨rfl, rfl, completionRegisters_frame _ _ _ _ _ _, rfl, rfl, rfl, rfl⟩
  | append => exact ⟨rfl, rfl, rfl, rfl, rfl, rfl, rfl⟩
  | packed => exact ⟨rfl, rfl, rfl, rfl, rfl, rfl, rfl⟩

/-- Settles O35: a host move adds to FAULT only while BUSY, and an internal step leaves it. -/
theorem faultRecordIsSticky : Obligations.FaultRecordIsSticky := by
  unfold Obligations.FaultRecordIsSticky
  intro s t h
  have same (hf : t.faults = s.faults) :
      s.faults <+: t.faults ∧
        (t.faults ≠ s.faults → s.work.phase = .busy ∧ ∃ ev u, s.hostNext ev u) :=
    ⟨hf ▸ List.prefix_rfl, fun hne => absurd hf hne⟩
  rcases step_effect h with rfl | ⟨ev, u, hn, he⟩ | ⟨u, hn, he⟩
  · exact same rfl
  · have hu := hostNext_frame hn
    have hf := hostEffect_faults he
    rw [hu] at hf
    rcases hf with hf | ⟨hb, hf⟩
    · exact same hf
    · exact ⟨hf, fun _ => ⟨hb, ev, u, hn⟩⟩
  · obtain ⟨_, _, _, _, hf, _, _⟩ := blockEffect_frame he
    rw [blockNext_frame hn] at hf
    exact same hf

/-- Settles O40, by the frame of `BlockEffect`. -/
theorem blockNeverWritesInput : Obligations.BlockNeverWritesInput := by
  unfold Obligations.BlockNeverWritesInput
  intro s u t hn h
  rw [step_block hn] at h
  have hframe := blockEffect_frame (blockMove_effect h)
  rw [blockNext_frame hn] at hframe
  obtain ⟨hin, hrest⟩ := hframe
  exact ⟨hin, fun a => by rw [hin], hrest⟩

/-! ### Free values -/

/-- The draw `d` comes from the stream of the state's next draw and not before it. -/
def State.ahead (s : State) (d : Draw) : Prop := d.stream = s.draws.stream ∧ s.draws.num ≤ d.num

/-- The next draw does not go back, and a buffer that is made unspecified takes a draw not used before. -/
def State.drawsOn (s t : State) : Prop :=
  s.ahead t.draws ∧ (t.inBuf.epoch = s.inBuf.epoch ∨ s.ahead t.inBuf.epoch) ∧
    (t.outBuf.epoch = s.outBuf.epoch ∨ s.ahead t.outBuf.epoch)

theorem ahead_self (s : State) : s.ahead s.draws := ⟨rfl, Nat.le_refl _⟩

theorem ahead_plus (s : State) (k : Nat) : s.ahead (s.draws.plus k) := ⟨rfl, Nat.le_add_right _ _⟩

theorem ahead_plus_plus (s : State) (j k : Nat) : s.ahead ((s.draws.plus j).plus k) :=
  ⟨rfl, Nat.le_trans (Nat.le_add_right _ j) (Nat.le_add_right _ k)⟩

/-- A step that leaves both buffers' draws alone. -/
theorem drawsOn_of_same {s t : State} (hd : s.ahead t.draws) (hi : t.inBuf.epoch = s.inBuf.epoch)
    (ho : t.outBuf.epoch = s.outBuf.epoch) : s.drawsOn t :=
  ⟨hd, .inl hi, .inl ho⟩

/-- A completion draws for OUT and for nothing else. -/
theorem complete_drawsOn (code : ResultCode) (off : Nat) (s : State) : s.drawsOn (s.complete code off) := by
  refine ⟨ahead_plus s 2, .inl rfl, .inr ?_⟩
  rw [State.complete_outBuf, completionOut_epoch]
  exact ahead_self s

theorem hazard_drawsOn (hz : Hazard) (s : State) : s.drawsOn (s.hazard hz) :=
  ⟨ahead_plus s 7, .inl rfl, .inr (ahead_self s)⟩

theorem bufferHazard_drawsOn (b : Buf) (o : Nat) (s : State) : s.drawsOn (s.bufferHazard b o) := by
  rcases bufferHazard_cases b o s with ⟨_, he⟩ | ⟨_, he⟩ <;> rw [he]
  · exact hazard_drawsOn _ s
  · refine ⟨ahead_plus_plus s 7 1, .inl ?_, .inr ?_⟩
    · exact State.store_inBuf_epoch _ _ _ _
    · rw [State.store_outBuf_epoch]
      exact ahead_self s

theorem hostEffect_drawsOn {s t : State} (he : HostEffect s t) : s.drawsOn t := by
  cases he with
  | write => exact drawsOn_of_same (ahead_self s) rfl rfl
  | start => exact drawsOn_of_same (ahead_self s) rfl rfl
  | illegal => exact complete_drawsOn .illegalCommand 0 { s with spoiled := false }
  | store _ b o v =>
    refine drawsOn_of_same ?_ (State.store_inBuf_epoch s b o v) (State.store_outBuf_epoch s b o v)
    rw [State.store_draws]
    exact ahead_self s
  | bind => exact drawsOn_of_same (ahead_self s) rfl rfl
  | hazard _ hz => exact hazard_drawsOn hz s
  | bufferHazard _ b o => exact bufferHazard_drawsOn b o s
  | bindingHazard => exact ⟨ahead_plus_plus s 7 1, .inl rfl, .inr (ahead_self s)⟩
  | read obs evs d hd =>
    refine drawsOn_of_same ?_ rfl rfl
    rcases hd with rfl | rfl
    · exact ahead_self s
    · exact ahead_plus s 1
  | reset => exact ⟨ahead_plus s 2, .inr (ahead_self s), .inr (ahead_plus s 1)⟩

theorem blockEffect_drawsOn {s t : State} (he : BlockEffect s t) : s.drawsOn t := by
  cases he with
  | pass => exact drawsOn_of_same (ahead_self s) rfl rfl
  | finish => exact complete_drawsOn .ok 0 s
  | fail code off => exact complete_drawsOn code off { s with work := { s.work with err := some (code, off) } }
  | append => exact drawsOn_of_same (ahead_self s) rfl rfl
  | packed => exact drawsOn_of_same (ahead_self s) rfl rfl

theorem step_drawsOn {s t : State} (h : step s = .next t) : s.drawsOn t := by
  rcases step_effect h with rfl | ⟨ev, u, hn, he⟩ | ⟨u, hn, he⟩
  · exact drawsOn_of_same (ahead_self t) rfl rfl
  · have hu := hostEffect_drawsOn he
    rw [hostNext_frame hn] at hu
    exact hu
  · have hu := blockEffect_drawsOn he
    rw [blockNext_frame hn] at hu
    exact hu

/-- Block `k` starts as the machine of stream `k`. -/
theorem resetInstances_get {configs : List Config} {k : Nat} {s : State}
    (h : (resetInstances configs)[k]? = some s) : ∃ c, s = State.resetWith k c := by
  unfold resetInstances at h
  rw [List.getElem?_mapIdx, Option.map_eq_some_iff] at h
  obtain ⟨c, _, rfl⟩ := h
  exact ⟨c, rfl⟩

/-- Settles O58: block `k` starts in stream `k`, and every step draws on in the state's own stream. -/
theorem instancesDrawApart : Obligations.InstancesDrawApart := by
  unfold Obligations.InstancesDrawApart
  refine ⟨fun configs j k s t hs ht hne => ?_, fun configs k s hs => ?_, fun s t h => ?_⟩
  · obtain ⟨_, rfl⟩ := resetInstances_get hs
    obtain ⟨_, rfl⟩ := resetInstances_get ht
    exact ⟨hne, hne, hne⟩
  · obtain ⟨_, rfl⟩ := resetInstances_get hs
    exact ⟨rfl, rfl, fun _ => rfl, fun _ => rfl⟩
  · obtain ⟨⟨hstream, hnum⟩, hin, hout⟩ := step_drawsOn h
    exact ⟨hstream, hnum, hin, hout⟩

end Sys2Proof.Machine
end

section
/-!
PROOFS. Host accesses and the registers (O26, O28, O29, O31, O33).
-/
namespace Sys2Proof.Machine

/-! ### Host accesses of an idle block, and the registers -/

/-- Idle, a register write follows the register's own rule. -/
theorem step_wr_idle {s u : State} {index : Nat} {v : Word} {r : RegName} (hi : s.work.phase = .idle)
    (hn : s.hostNext (.wr index v) u) (hr : RegName.ofIndex index = some r) (hcmd : r ≠ .cmd) :
    step s = .next { u with reg := u.reg.set r v } := by
  have hu : u.work.phase ≠ .busy := by simp [hostNext_phase hn, hi]
  simp [step_host hn, State.hostMove, State.wrMove, hr, hcmd, Move.outcome, State.writeReg, hu]

/-- Idle, a register read puts its answer on record and changes nothing else. -/
theorem step_rd_idle {s u : State} {index : Nat} {r : RegName} (hi : s.work.phase = .idle)
    (hn : s.hostNext (.rd index) u) (hr : RegName.ofIndex index = some r) :
    step s = .next (u.observe (.reg r (u.readReg r).1)) := by
  have hu : u.work.phase = .idle := (hostNext_phase hn).trans hi
  simp [step_host hn, State.hostMove, State.rdMove, hr, Move.outcome, State.readObserved, readReg_idle hu]

/-- Idle, a write and then a read of a register: two steps, the answer being the register's new value. -/
theorem reaches_wr_rd {s : State} {index : Nat} {v : Word} {rest : List Event} {r : RegName}
    (hi : s.work.phase = .idle) (he : s.events = .wr index v :: .rd index :: rest)
    (hr : RegName.ofIndex index = some r) (hcmd : r ≠ .cmd) :
    reaches 2 s { s with
      reg := s.reg.set r v, events := rest
      observed := .reg r (State.readReg r { s with reg := s.reg.set r v, events := rest }).1 :: s.observed } :=
  ⟨_, step_wr_idle hi (hostNext_of_idle hi he) hr hcmd, _,
    step_rd_idle (by exact hi) (hostNext_of_idle (by exact hi) rfl) hr, rfl⟩

/-- Settles O28: each of the five registers is one case of `reaches_wr_rd`. -/
theorem registerReadsBackWhatWasWritten : Obligations.RegisterReadsBackWhatWasWritten := by
  unfold Obligations.RegisterReadsBackWhatWasWritten
  intro s v rest hi p hp he
  have sameBytes (r : Registers) (obs : List Observation) :
      s.sameBytes { s with reg := r, events := rest, observed := obs } := by
    intro b a
    cases b <;> rfl
  simp only [List.mem_cons, List.not_mem_nil, or_false] at hp
  rcases hp with rfl | rfl | rfl | rfl | rfl
  · exact ⟨_, reaches_wr_rd hi he (r := .escape) rfl nofun, sameBytes _ _, rfl⟩
  · exact ⟨_, reaches_wr_rd hi he (r := .minRun) rfl nofun, sameBytes _ _, rfl⟩
  · exact ⟨_, reaches_wr_rd hi he (r := .width) rfl nofun, sameBytes _ _, rfl⟩
  · exact ⟨_, reaches_wr_rd hi he (r := .height) rfl nofun, sameBytes _ _, rfl⟩
  · exact ⟨_, reaches_wr_rd hi he (r := .inLen) rfl nofun, sameBytes _ _, rfl⟩

/-- Settles O29: the rule of a read-only register is to keep what it holds. -/
theorem readOnlyRegistersIgnoreWrites : Obligations.ReadOnlyRegistersIgnoreWrites := by
  unfold Obligations.ReadOnlyRegistersIgnoreWrites
  intro s u v hi index hindex hn
  simp only [List.mem_cons, List.not_mem_nil, or_false] at hindex
  rcases hindex with rfl | rfl | rfl
  · exact step_wr_idle hi hn (r := .status) rfl nofun
  · exact step_wr_idle hi hn (r := .outLen) rfl nofun
  · exact step_wr_idle hi hn (r := .errOffset) rfl nofun

/-- Settles O31: the word by its two fields, the numbers by the table of R121. -/
theorem statusWordLayout : Obligations.StatusWordLayout := by
  unfold Obligations.StatusWordLayout
  refine ⟨fun r p => ⟨statusWord_toNat r p, code_le_seven r⟩, fun p hp => ?_⟩
  have hcode : p.1.code = p.2 := by
    revert p
    decide
  refine ⟨hcode, fun s hs => ⟨?_, statusWord_busy _ _⟩⟩
  rw [← hcode, ← hs]
  exact statusWord_result _ _

/-- Settles O26: both cases are `State.resetWith` of some parameters. -/
theorem registersAfterReset : Obligations.RegistersAfterReset := by
  unfold Obligations.RegistersAfterReset
  intro s k h
  obtain ⟨c, rfl⟩ : ∃ c, s = State.resetWith k c := by
    rcases h with ⟨rfl, rfl⟩ | h
    · exact ⟨Config.standard, rfl⟩
    · exact h
  have hstatus : (State.resetWith k c).status = 0 := by
    show statusWord .none .idle = 0
    decide
  refine ⟨?_, rfl, rfl, rfl, rfl, rfl⟩
  simp only [List.map_cons, List.map_nil, State.readReg, hstatus]
  rfl

/-- Settles O33: one case for each access, the host having the turn. -/
theorem accessOutsideTheMapStops : Obligations.AccessOutsideTheMapStops := by
  unfold Obligations.AccessOutsideTheMapStops
  intro s u
  refine ⟨fun index v h hn => ?_, fun index h hn => ?_, fun bits hn => ?_, fun b o v hi h hn => ?_,
    fun b o h hn => ?_⟩ <;> rw [step_host hn]
  · simp [State.hostMove, State.wrMove, ofIndex_eq_none h, Move.outcome]
  · simp [State.hostMove, State.rdMove, ofIndex_eq_none h, Move.outcome]
  · rfl
  · have hu : u.work.phase ≠ .busy := by simp [hostNext_phase hn, hi]
    have ho : ¬ o < u.cap b := by rw [hostNext_cap hn]; exact Nat.not_lt.2 h
    simp [State.hostMove, State.wrbMove, hu, ho, Move.outcome]
  · have ho : ¬ o < u.cap b := by rw [hostNext_cap hn]; exact Nat.not_lt.2 h
    simp [State.hostMove, State.rdbMove, ho, Move.outcome]

end Sys2Proof.Machine
end

section
/-!
PROOFS. The internal steps before the completion: there always is one, and only the working state shows it (O41).
-/
namespace Sys2Proof.Machine

/-! ### A turn of the block has a next state -/

/-- No instruction of the table stops the machine. -/
theorem exec_total (i : Instr) (s : State) : ∃ t, exec i s = .next t := by
  cases i <;> exact ⟨_, rfl⟩

theorem packMove_total (s : State) : ∃ t, s.packMove.outcome = .next t := by
  unfold State.packMove
  split
  next => exact ⟨_, rfl⟩
  next => exact exec_total (s.work.px.group s.work.y s.work.g) s

theorem encodeMove_total (s : State) : ∃ t, s.encodeMove.outcome = .next t := by
  unfold State.encodeMove
  split
  next => exact ⟨_, rfl⟩
  next => exact ⟨_, rfl⟩

theorem decodeMove_total (s : State) : ∃ t, s.decodeMove.outcome = .next t := by
  unfold State.decodeMove
  split
  next => exact ⟨_, rfl⟩
  next i _ _ => exact exec_total i s

/-- An internal step goes to a state or runs an instruction; it never stops (R116). -/
theorem blockMove_total (s : State) : ∃ t, s.blockMove.outcome = .next t := by
  unfold State.blockMove
  split
  next => exact ⟨_, rfl⟩
  next =>
    cases s.work.opl with
    | pack => exact packMove_total s
    | encode => exact encodeMove_total s
    | decode => exact decodeMove_total s

/-! ### Before the completion -/

/-- An internal step that leaves BUSY at 1 is no completion, and changes the working state alone (R44, R117). -/
theorem blockEffect_busy_frame {s t : State} (he : BlockEffect s t) (hb : t.work.phase = .busy) :
    t = { s with work := t.work } := by
  cases he with
  | pass => rfl
  | append => rfl
  | packed => rfl
  | finish => cases hb
  | fail => cases hb

/-- Settles O41: a turn of the block never stops, and short of a completion it touches the working state alone. -/
theorem nothingVisibleBeforeCompletion : Obligations.NothingVisibleBeforeCompletion := by
  unfold Obligations.NothingVisibleBeforeCompletion
  refine ⟨fun s u hn => ?_, fun s u t hn h hb => ?_⟩
  · rw [step_block hn]
    exact blockMove_total u
  · rw [step_block hn] at h
    have hframe := blockEffect_busy_frame (blockMove_effect h) hb
    rw [blockNext_frame hn] at hframe
    rw [hframe]
    exact ⟨rfl, fun _ => rfl, rfl, rfl⟩

end Sys2Proof.Machine
end

section
/-!
PROOFS. The encodings of 30_encoding.md: what each decoder answers for the encoding of an instruction, and what
word or bytes an answer was read from (O1 to O4).
-/
namespace Sys2Proof.Machine

/-! ### The packed byte (R50) -/

/-- The packed byte bit by bit, the rightmost pixel lowest. -/
theorem packBits_eq_bit (a b c d e f g h : Bool) :
    packBits a b c d e f g h =
      BitVec.ofNat 8
        (Nat.bit h (Nat.bit g (Nat.bit f (Nat.bit e (Nat.bit d (Nat.bit c (Nat.bit b a.toNat))))))) := by
  simp only [packBits, Nat.bit_val]
  congr 1
  omega

theorem decodePacked_packBits (a b c d e f g h : Bool) :
    decodePacked (packBits a b c d e f g h) = .pixel8 a b c d e f g h := by
  simp only [packBits_eq_bit, decodePacked, BitVec.getLsbD_ofNat, Nat.testBit_bit_zero, Nat.testBit_bit_succ]
  cases a <;> simp

theorem decodePacked_of_encode {i : Instr} {b : Byte} (henc : encode i = .packed b) : decodePacked b = i := by
  cases i <;> cases henc
  exact decodePacked_packBits _ _ _ _ _ _ _ _

/-! ### The command word (R60 to R62) -/

theorem decodeCommand_op0 (reserved : BitVec 30) :
    decodeCommand (reserved ++ (0 : BitVec 2)) = .illegalCmdOp0 reserved := by
  simp only [decodeCommand, BitVec.extractLsb'_append_eq_left, BitVec.extractLsb'_append_eq_right, if_true]

theorem decodeCommand_rsvd {reserved : BitVec 30} {op : BitVec 2} (hr : reserved ≠ 0) (hop : op ≠ 0) :
    decodeCommand (reserved ++ op) = .illegalCmdRsvd reserved op := by
  simp only [decodeCommand, BitVec.extractLsb'_append_eq_left, BitVec.extractLsb'_append_eq_right, hop, hr,
    if_false, ne_eq, not_false_iff, if_true]

theorem decodeCommand_of_encode {i : Instr} {w : Word} (henc : encode i = .command w) (hwf : i.wf = true) :
    decodeCommand w = i := by
  cases i <;> cases henc
  case pack => rfl
  case encode => rfl
  case decode => rfl
  case illegalCmdOp0 r => exact decodeCommand_op0 r
  case illegalCmdRsvd r op =>
    obtain ⟨hr, hop⟩ : r ≠ 0 ∧ op ≠ 0 := by simpa only [Instr.wf, Bool.and_eq_true, bne_iff_ne] using hwf
    exact decodeCommand_rsvd hr hop

/-- A word is its 30 reserved bits and OP: illegal by OP = 00, illegal by a reserved bit, or 1, 2 or 3. -/
theorem commandWord_cases (w : Word) :
    (∃ reserved : BitVec 30, w = reserved ++ (0 : BitVec 2)) ∨
    (∃ (reserved : BitVec 30) (op : BitVec 2), reserved ≠ 0 ∧ op ≠ 0 ∧ w = reserved ++ op) ∨
    w = 1 ∨ w = 2 ∨ w = 3 := by
  have legal : ∀ op : BitVec 2, op ≠ 0 →
      ((0 : BitVec 30) ++ op : Word) = 1 ∨ ((0 : BitVec 30) ++ op : Word) = 2 ∨
        ((0 : BitVec 30) ++ op : Word) = 3 := by decide
  obtain ⟨reserved, op, rfl⟩ : ∃ (reserved : BitVec 30) (op : BitVec 2), w = reserved ++ op :=
    ⟨_, _, (BitVec.extractLsb'_append_extractLsb' (len := 2) (w := 30)).symm⟩
  by_cases hop : op = 0
  · exact .inl ⟨reserved, by rw [hop]⟩
  by_cases hr : reserved = 0
  · rw [hr]
    exact .inr (.inr (legal op hop))
  · exact .inr (.inl ⟨reserved, op, hr, hop, rfl⟩)

/-- No bit of a command word is lost by decoding it. -/
theorem encode_decodeCommand (w : Word) : encode (decodeCommand w) = .command w := by
  rcases commandWord_cases w with ⟨r, rfl⟩ | ⟨r, op, hr, hop, rfl⟩ | rfl | rfl | rfl
  · rw [decodeCommand_op0, encode]
  · rw [decodeCommand_rsvd hr hop, encode]
  · rfl
  · rfl
  · rfl

/-! ### The token patterns (R51 to R58) -/

theorem decodeToken_lit {e b : Byte} (hb : b ≠ e) (rest : List Byte) :
    decodeToken e (b :: rest) = .ok (.lit b, rest) := by
  simp only [decodeToken, if_pos hb]

theorem decodeToken_truncCount (e : Byte) : decodeToken e [e] = .ok (.truncCount e, []) := by
  simp only [decodeToken, ne_eq, not_true_eq_false, if_false]

theorem decodeToken_illegalCount0 (e : Byte) (rest : List Byte) :
    decodeToken e (e :: 0 :: rest) = .ok (.illegalCount0 e, rest) := by
  simp only [decodeToken, ne_eq, not_true_eq_false, if_false, if_true]

theorem decodeToken_truncValue (e : Byte) {c : Byte} (hc : c ≠ 0) :
    decodeToken e [e, c] = .ok (.truncValue e c, []) := by
  simp only [decodeToken, ne_eq, not_true_eq_false, if_false, if_neg hc]

theorem decodeToken_esc (e : Byte) (rest : List Byte) :
    decodeToken e (e :: 1 :: e :: rest) = .ok (.esc e, rest) := by
  simp only [decodeToken, ne_eq, not_true_eq_false, if_false, if_true, if_neg (by decide : (1 : Byte) ≠ 0)]

theorem decodeToken_illegalEscValue {e v : Byte} (hv : v ≠ e) (rest : List Byte) :
    decodeToken e (e :: 1 :: v :: rest) = .ok (.illegalEscValue e v, rest) := by
  simp only [decodeToken, ne_eq, not_true_eq_false, if_false, if_true, if_neg (by decide : (1 : Byte) ≠ 0),
    if_neg hv]

theorem decodeToken_run (e : Byte) {c : Byte} (hc0 : c ≠ 0) (hc1 : c ≠ 1) (v : Byte) (rest : List Byte) :
    decodeToken e (e :: c :: v :: rest) = .ok (.run e c v, rest) := by
  simp only [decodeToken, ne_eq, not_true_eq_false, if_false, if_neg hc0, if_neg hc1]

/-- A count that is neither 00 nor 01 is a run of at least two. -/
theorem two_le_count_iff (c : Byte) : 2 ≤ c.toNat ↔ c ≠ 0 ∧ c ≠ 1 := by
  bv_omega

/-- A well-formed pattern that fits the escape byte is read back from the front of a stream, the patterns that
end a stream from its end. -/
theorem decodeToken_append {e : Byte} {i : Instr} {bs : List Byte} (rest : List Byte)
    (henc : encode i = .stream bs) (hwf : i.wf = true) (hfits : i.fits e = true)
    (hend : i.endsStream = true → rest = []) : decodeToken e (bs ++ rest) = .ok (i, rest) := by
  cases i <;> cases henc <;>
    simp only [Instr.wf, Instr.fits, bne_iff_ne, beq_iff_eq, decide_eq_true_eq] at hwf hfits
  case lit b => exact decodeToken_lit hfits rest
  all_goals subst hfits
  case run e n v =>
    obtain ⟨h0, h1⟩ := (two_le_count_iff n).1 hwf
    exact decodeToken_run e h0 h1 v rest
  case esc e => exact decodeToken_esc e rest
  case illegalEscValue e v => exact decodeToken_illegalEscValue hwf rest
  case illegalCount0 e => exact decodeToken_illegalCount0 e rest
  case truncCount e => rw [hend rfl]; exact decodeToken_truncCount e
  case truncValue e c => rw [hend rfl]; exact decodeToken_truncValue e hwf

/-- A nonempty stream begins with one of the seven patterns. -/
theorem decodeToken_total (e b : Byte) (bs : List Byte) : ∃ i rest, decodeToken e (b :: bs) = .ok (i, rest) := by
  by_cases hb : b = e
  case neg => exact ⟨_, _, decodeToken_lit hb bs⟩
  subst hb
  rcases bs with _ | ⟨c, bs⟩
  · exact ⟨_, _, decodeToken_truncCount b⟩
  by_cases hc0 : c = 0
  · subst hc0
    exact ⟨_, _, decodeToken_illegalCount0 b bs⟩
  rcases bs with _ | ⟨v, bs⟩
  · exact ⟨_, _, decodeToken_truncValue b hc0⟩
  by_cases hc1 : c = 1
  case neg => exact ⟨_, _, decodeToken_run b hc0 hc1 v bs⟩
  subst hc1
  by_cases hv : v = b
  · subst hv
    exact ⟨_, _, decodeToken_esc v bs⟩
  · exact ⟨_, _, decodeToken_illegalEscValue hv bs⟩

/-- What the token decoder answers is well-formed, fits the escape byte and stood before the rest. -/
theorem decodeToken_sound {e : Byte} {bs : List Byte} {i : Instr} {rest : List Byte}
    (h : decodeToken e bs = .ok (i, rest)) :
    i.wf = true ∧ i.fits e = true ∧ i.bytes ++ rest = bs ∧ (i.endsStream = true → rest = []) := by
  rcases decodeToken_cases h with ⟨b, hb, rfl, rfl⟩ | ⟨rfl, rfl, rfl⟩ | ⟨rfl, rfl⟩ |
    ⟨c, hc, rfl, rfl, rfl⟩ | ⟨rfl, rfl⟩ | ⟨v, hv, rfl, rfl⟩ | ⟨c, v, hc0, hc1, rfl, rfl⟩
  · exact ⟨rfl, bne_iff_ne.2 hb, rfl, nofun⟩
  · exact ⟨rfl, beq_self_eq_true e, rfl, fun _ => rfl⟩
  · exact ⟨rfl, beq_self_eq_true e, rfl, nofun⟩
  · exact ⟨bne_iff_ne.2 hc, beq_self_eq_true e, rfl, fun _ => rfl⟩
  · exact ⟨rfl, beq_self_eq_true e, rfl, nofun⟩
  · exact ⟨bne_iff_ne.2 hv, beq_self_eq_true e, rfl, nofun⟩
  · exact ⟨decide_eq_true ((two_le_count_iff c).2 ⟨hc0, hc1⟩), beq_self_eq_true e, rfl, nofun⟩

/-! ### Token streams (R51) -/

/-- The tokens are among the stream patterns, and none of them ends the stream. -/
theorem token_stream {i : Instr} (h : i.isToken = true) :
    encode i = .stream i.bytes ∧ i.endsStream = false := by
  cases i with
  | lit | run | esc => exact ⟨rfl, rfl⟩
  | _ => cases h

/-- The stream decoder goes on after the first token. -/
theorem decodeStream_of_decodeToken {e : Byte} {bs rest : List Byte} {i : Instr} (k : Nat)
    (h : decodeToken e bs = .ok (i, rest)) :
    decodeStream e (k + 1) bs = (decodeStream e k rest).map (i :: ·) := by
  cases bs with
  | nil => cases h
  | cons b bs => simp only [decodeStream, h]

theorem decodeStream_tokens {e : Byte} {tokens : List Instr} {k : Nat}
    (h : ∀ i ∈ tokens, i.isToken = true ∧ i.wf = true ∧ i.fits e = true) (hk : tokens.length ≤ k) :
    decodeStream e k (tokens.flatMap Instr.bytes) = .ok tokens := by
  induction tokens generalizing k with
  | nil => cases k <;> rfl
  | cons i tokens ih =>
    obtain ⟨k, rfl⟩ := Nat.exists_eq_add_of_lt (Nat.lt_of_lt_of_le (Nat.succ_pos _) hk)
    obtain ⟨⟨htok, hwf, hfits⟩, htail⟩ := List.forall_mem_cons.1 h
    obtain ⟨henc, hend⟩ := token_stream htok
    have hfirst : decodeToken e (i.bytes ++ tokens.flatMap Instr.bytes) = .ok (i, tokens.flatMap Instr.bytes) :=
      decodeToken_append _ henc hwf hfits (by simp [hend])
    rw [List.flatMap_cons, decodeStream_of_decodeToken _ hfirst, ih htail (by simpa using hk)]
    rfl

/-! ### The obligations -/

/-- Settles O1: each format by the rule of its own decoder. -/
theorem encodedInstructionDecodesToItself : Obligations.EncodedInstructionDecodesToItself := by
  unfold Obligations.EncodedInstructionDecodesToItself
  intro e i hwf hfits
  cases henc : encode i with
  | command w => rw [decode, decodeCommand_of_encode henc hwf]
  | stream bs => rw [decode, ← decodeToken_append [] henc hwf hfits fun _ => rfl, List.append_nil]
  | packed b => rw [decode, decodePacked_of_encode henc]

/-- Settles O2, by induction on the tokens. -/
theorem tokenStreamDecodesInOrder : Obligations.TokenStreamDecodesInOrder := by
  unfold Obligations.TokenStreamDecodesInOrder
  exact fun _ _ _ => decodeStream_tokens

/-- Settles O3, pattern by pattern. -/
theorem decodedTokenIsPrefixOfStream : Obligations.DecodedTokenIsPrefixOfStream := by
  unfold Obligations.DecodedTokenIsPrefixOfStream
  exact ⟨decodeToken_total, fun _ _ _ _ => decodeToken_sound⟩

/-- Settles O4: a word that is not legal has OP = 00 or a reserved bit set. -/
theorem onlyThreeCommandWordsAreLegal : Obligations.OnlyThreeCommandWordsAreLegal := by
  unfold Obligations.OnlyThreeCommandWordsAreLegal
  refine ⟨rfl, rfl, rfl, fun w h1 h2 h3 => ?_⟩
  rcases commandWord_cases w with ⟨r, rfl⟩ | ⟨r, op, hr, hop, rfl⟩ | h | h | h
  · exact ⟨.inl BitVec.extractLsb'_append_eq_right, .inl ⟨r, decodeCommand_op0 r⟩, encode_decodeCommand _⟩
  · refine ⟨.inr ?_, .inr ⟨r, op, decodeCommand_rsvd hr hop⟩, encode_decodeCommand _⟩
    rwa [BitVec.extractLsb'_append_eq_left]
  · exact absurd h h1
  · exact absurd h h2
  · exact absurd h h3

end Sys2Proof.Machine
end

section
/-!
PROOFS. Bytes stored in a row, and the host's binding, POLL and COPY (O37, O38).
-/
namespace Sys2Proof.Machine

/-! ### Bytes stored in a row -/

theorem Memory.bytes_succ (m : Memory) (o k : Nat) : m.bytes o (k + 1) = m.read o :: m.bytes (o + 1) k := by
  simp only [Memory.bytes, List.range_succ_eq_map, List.map_cons, List.map_map, Nat.add_zero, Function.comp_def,
    Nat.succ_eq_add_one, Nat.add_assoc, Nat.add_comm 1]

/-- Storing bytes from offset `o` on leaves the offsets before it. -/
theorem Memory.read_storeBytes_before (m : Memory) {o a : Nat} (bs : List Byte) (h : a < o) :
    (m.storeBytes o bs).read a = m.read a := by
  induction bs generalizing m o with
  | nil => rfl
  | cons b bs ih =>
    rw [Memory.storeBytes, ih _ (Nat.lt_succ_of_lt h), Memory.read_write_other _ _ (Nat.ne_of_lt h)]

/-- What a read answers `k` bytes into or past a row of stored bytes. -/
theorem Memory.read_storeBytes (m : Memory) (o k : Nat) (bs : List Byte) :
    (m.storeBytes o bs).read (o + k) = (bs[k]?).getD (m.read (o + k)) := by
  induction bs generalizing m o k with
  | nil => rfl
  | cons b bs ih =>
    rw [Memory.storeBytes]
    cases k with
    | zero =>
      rw [Memory.read_storeBytes_before _ _ (Nat.lt_succ_self (o + 0)), Nat.add_zero, Memory.read_write_same]
      rfl
    | succ k =>
      rw [← Nat.add_assoc, Nat.add_right_comm, ih, Memory.read_write_other _ _ (by omega),
        List.getElem?_cons_succ]

/-- The bytes stored in a row are the bytes there. -/
theorem Memory.bytes_storeBytes (m : Memory) (o : Nat) (bs : List Byte) :
    (m.storeBytes o bs).bytes o bs.length = bs := by
  induction bs generalizing m o with
  | nil => rfl
  | cons b bs ih =>
    have hfirst := Memory.read_storeBytes m o 0 (b :: bs)
    rw [List.length_cons, Memory.bytes_succ, Memory.storeBytes, ih, ← Memory.storeBytes]
    exact congrArg (· :: bs) hfirst

theorem Memory.bytes_getElem? (m : Memory) {o len k : Nat} (h : k < len) :
    (m.bytes o len)[k]? = some (m.read (o + k)) := by
  simp [Memory.bytes, h]

/-! ### Binding and POLL -/

/-- Bit 0 of STATUS is BUSY (R17). -/
theorem status_bit_zero (s : State) : s.status.getLsbD 0 = decide (s.work.phase = .busy) := by
  unfold State.status
  cases s.reg.result <;> cases s.work.phase <;> rfl

theorem hostNext_status {s u : State} {ev : Event} (h : s.hostNext ev u) : u.status = s.status := by
  rw [hostNext_frame h]
  rfl

/-- Settles O37: the binding by the rule of an idle block, POLL by bit 0 of STATUS. -/
theorem bindAndPollMoves : Obligations.BindAndPollMoves := by
  unfold Obligations.BindAndPollMoves
  refine fun s u => ⟨fun src hi hn => ?_, fun hn => ?_⟩ <;> rw [step_host hn]
  · have hu : u.work.phase ≠ .busy := by simp [hostNext_phase hn, hi]
    simp only [State.hostMove, State.bindNow, if_neg hu, Move.outcome]
  · simp only [State.hostMove, Move.outcome, State.pollNow, State.readObserved, State.readReg, status_bit_zero,
      hostNext_status hn, decide_eq_true_eq]
    split <;> rfl

/-! ### COPY -/

/-- COPY reads OUT_LEN first. -/
theorem step_copy_idle {s u : State} (hi : s.work.phase = .idle) (hn : s.hostNext .copy u) :
    step s = .next ((u.observe (.reg .outLen u.reg.outLen)).push [.copyFrom 0 u.reg.outLen]) := by
  have hu : u.work.phase = .idle := (hostNext_phase hn).trans hi
  simp [step_host hn, State.hostMove, Move.outcome, State.copyStart, State.readObserved, State.readReg, hu]

theorem readByte_idle {s : State} (h : s.work.phase = .idle) (b : Buf) (o : Nat) :
    s.readByte b o = ((s.buf b).read o, s) := by
  simp [State.readByte, h]

/-- COPY before its last byte reads a byte of OUT and makes the write of it to IN its next move. -/
theorem step_copyFrom_idle {s u : State} {o : Nat} {n : Word} (hi : s.work.phase = .idle)
    (hn : s.hostNext (.copyFrom o n) u) (ho : o < n.toNat) (hcap : o < s.cap .outBuf) :
    step s = .next ((u.observe (.byte .outBuf o (u.outBuf.read o))).push
      [.wrb .inBuf o (u.outBuf.read o), .copyFrom (o + 1) n]) := by
  have hu : u.work.phase = .idle := (hostNext_phase hn).trans hi
  rw [← hostNext_cap hn] at hcap
  simp only [step_host hn, State.hostMove, State.copyMove, if_pos ho, if_pos hcap, Move.outcome,
    State.readByteObserved, readByte_idle hu, State.buf]

/-- COPY past its last byte writes IN_LEN. -/
theorem step_copyFrom_end {s u : State} {o : Nat} {n : Word} (hi : s.work.phase = .idle)
    (hn : s.hostNext (.copyFrom o n) u) (ho : n.toNat ≤ o) :
    step s = .next { u with reg := { u.reg with inLen := n } } := by
  have hu : u.work.phase ≠ .busy := by simp [hostNext_phase hn, hi]
  simp only [step_host hn, State.hostMove, State.copyMove, if_neg (Nat.not_lt.2 ho), Move.outcome,
    State.writeReg, if_neg hu, Registers.set]

/-- Idle, a byte write in range stores the byte (R110). -/
theorem step_wrb_idle {s u : State} {b : Buf} {o : Nat} {v : Byte} (hi : s.work.phase = .idle)
    (hn : s.hostNext (.wrb b o v) u) (ho : o < s.cap b) : step s = .next (u.store b o v) := by
  have hu : u.work.phase ≠ .busy := by simp [hostNext_phase hn, hi]
  rw [← hostNext_cap hn] at ho
  simp only [step_host hn, State.hostMove, State.wrbMove, if_neg hu, if_pos ho, Move.outcome]

/-- COPY moves a byte in two steps. -/
theorem reaches_copy_byte {s : State} {o : Nat} {n : Word} {rest : List Event} (hi : s.work.phase = .idle)
    (he : s.events = .copyFrom o n :: rest) (ho : o < n.toNat) (hin : o < s.cap .inBuf)
    (hout : o < s.cap .outBuf) :
    reaches 2 s { s with
      inBuf := s.inBuf.write o (s.outBuf.read o), events := .copyFrom (o + 1) n :: rest
      observed := .byte .outBuf o (s.outBuf.read o) :: s.observed } :=
  ⟨_, step_copyFrom_idle hi (hostNext_of_idle hi he) ho hout, _,
    step_wrb_idle (b := .inBuf) (by exact hi) (hostNext_of_idle (by exact hi) rfl) hin, rfl⟩

/-- COPY with `k` bytes left takes two steps for each and one for IN_LEN. -/
theorem reaches_copyFrom {s : State} {o k : Nat} {n : Word} {rest : List Event} (hi : s.work.phase = .idle)
    (he : s.events = .copyFrom o n :: rest) (hk : o + k = n.toNat) (hin : n.toNat ≤ s.cap .inBuf)
    (hout : n.toNat ≤ s.cap .outBuf) :
    ∃ obs, reaches (2 * k + 1) s { s with
      inBuf := s.inBuf.storeBytes o (s.outBuf.bytes o k), reg := { s.reg with inLen := n }
      events := rest, observed := obs } := by
  induction k generalizing s o with
  | zero => exact ⟨s.observed, _, step_copyFrom_end hi (hostNext_of_idle hi he) (Nat.le_of_eq hk.symm), rfl⟩
  | succ k ih =>
    have ho : o < n.toNat := by omega
    have hbyte := reaches_copy_byte hi he ho (Nat.lt_of_lt_of_le ho hin) (Nat.lt_of_lt_of_le ho hout)
    obtain ⟨obs, hrest⟩ := ih (s := { s with
        inBuf := s.inBuf.write o (s.outBuf.read o), events := .copyFrom (o + 1) n :: rest
        observed := .byte .outBuf o (s.outBuf.read o) :: s.observed }) hi rfl (by omega) hin hout
    rw [Memory.bytes_succ, Nat.mul_succ, Nat.add_comm (2 * k) 2, Nat.add_assoc]
    exact ⟨obs, reaches_trans hbyte hrest⟩

/-- Settles O38: OUT_LEN is read, the bytes are moved one by one, IN_LEN is written. -/
theorem copyMovesOutputToInput : Obligations.CopyMovesOutputToInput := by
  unfold Obligations.CopyMovesOutputToInput
  intro s rest hi he hin hout
  have hread := step_copy_idle hi (hostNext_of_idle hi he)
  obtain ⟨obs, hcopy⟩ := reaches_copyFrom (o := 0) (n := s.reg.outLen) (rest := rest)
    (s := { s with
      events := .copyFrom 0 s.reg.outLen :: rest, observed := .reg .outLen s.reg.outLen :: s.observed })
    hi rfl (Nat.zero_add _) hin hout
  have hbytes (a : Nat) := Memory.read_storeBytes s.inBuf 0 a (s.outBuf.bytes 0 s.reg.outLen.toNat)
  simp only [Nat.zero_add] at hbytes
  refine ⟨_, ⟨_, hread, hcopy⟩, fun a ha => ?_, fun a ha => ?_, rfl, rfl⟩
  · refine (hbytes a).trans ?_
    rw [Memory.bytes_getElem? _ ha, Nat.zero_add]
    rfl
  · refine (hbytes a).trans ?_
    rw [List.getElem?_eq_none (Memory.bytes_length .. ▸ ha)]
    rfl

end Sys2Proof.Machine
end

section
/-!
PROOFS. An instruction placed where the machine takes it next: the command word and the token of a step (O9).
-/
namespace Sys2Proof.Machine

/-! ### Table words (log 13) -/

theorem tableBytes_length (k w : Nat) : (tableBytes k w).length = k := by
  induction k with
  | zero => rfl
  | succ k ih => rw [tableBytes, List.length_cons, ih]

/-- What a table word is read as: a command word, or a token of at most three bytes under its own escape byte. -/
theorem decodeTableWord_cases {nbits w : Nat} {i : Instr} (h : decodeTableWord nbits w = some i) :
    (nbits = 32 ∧ i = decodeCommand (BitVec.ofNat 32 w)) ∨
    (nbits ≠ 32 ∧ nbits / 8 ≤ 3 ∧ ∃ rest,
      decodeToken (tableEscape (tableBytes (nbits / 8) w)) (tableBytes (nbits / 8) w) = .ok (i, rest)) := by
  unfold decodeTableWord decodeTable at h
  by_cases h32 : nbits = 32
  · simp only [if_pos h32, Option.some.injEq] at h
    exact .inl ⟨h32, h.symm⟩
  by_cases hlen : nbits = 8 ∨ nbits = 16 ∨ nbits = 24
  case neg => simp [h32, hlen] at h
  refine .inr ⟨h32, by omega, ?_⟩
  simp only [if_neg h32, if_pos hlen] at h
  cases hd : decodeToken (tableEscape (tableBytes (nbits / 8) w)) (tableBytes (nbits / 8) w) with
  | error err => simp [hd] at h
  | ok p =>
    obtain ⟨j, rest⟩ := p
    simp only [hd, Option.some.injEq] at h
    exact ⟨rest, by rw [h]⟩

/-! ### A step runs the instruction read -/

/-- A host write to CMD runs the instruction its word encodes (R108, R112). -/
theorem step_wr_cmd {s u : State} {v : Word} (hn : s.hostNext (.wr 0 v) u) :
    step s = exec (decodeCommand v) u := by
  rw [step_host hn]
  rfl

/-- The block's step of a DECODE past its start checks runs the token at the cursor (R105). -/
theorem step_decode_token {s u : State} {i : Instr} {rest : List Byte} (hn : s.blockNext u)
    (hu : u.iterating .decode) (hf : u.fetchToken = .ok (i, rest)) : step s = exec i u := by
  obtain ⟨hc, hop⟩ := hu
  simp only [step_block hn, State.blockMove, hc, hop, Bool.true_eq_false, if_false, State.decodeMove, hf,
    Move.outcome]

/-! ### The placed instruction (log 14) -/

/-- The stream of a placed token is what the DECODE has before it. -/
theorem placeToken_window {s : State} {bs : List Byte} (hpc : s.work.pc + bs.length < 2 ^ 32)
    (hlen : bs.length ≤ 3) : (s.placeToken bs).window 3 = bs := by
  have hn : (BitVec.ofNat 32 (s.work.pc + bs.length)).toNat - s.work.pc = bs.length := by
    rw [BitVec.toNat_ofNat, Nat.mod_eq_of_lt hpc, Nat.add_sub_cancel_left]
  show (s.inBuf.storeBytes s.work.pc bs).bytes s.work.pc
    (min 3 ((BitVec.ofNat 32 (s.work.pc + bs.length)).toNat - s.work.pc)) = bs
  rw [hn, Nat.min_eq_right hlen, Memory.bytes_storeBytes]

/-- The block moves next after a token is placed, whether or not the host has moves pending. -/
theorem placeToken_blockNext (s : State) (bs : List Byte) :
    ∃ turns, (s.placeToken bs).blockNext { s.placeToken bs with sched := turns } := by
  by_cases he : s.events = []
  · exact ⟨_, rfl, .inl ⟨.inl he, rfl⟩⟩
  · exact ⟨s.sched, rfl, .inr ⟨s.sched, he, rfl, rfl⟩⟩

/-- A placed token is run by the next step, only the schedule having moved on. -/
theorem step_placeToken {s : State} {bs rest : List Byte} {i : Instr}
    (hpc : s.work.pc + bs.length < 2 ^ 32) (hlen : bs.length ≤ 3)
    (hd : decodeToken (tableEscape bs) bs = .ok (i, rest)) :
    ∃ turns, step (s.placeToken bs) = exec i { s.placeToken bs with sched := turns } := by
  obtain ⟨turns, hn⟩ := placeToken_blockNext s bs
  have hfetch : State.fetchToken { s.placeToken bs with sched := turns } = .ok (i, rest) := by
    rw [← hd]
    exact congrArg (decodeToken (tableEscape bs)) (placeToken_window hpc hlen)
  exact ⟨turns, step_decode_token hn ⟨rfl, rfl⟩ hfetch⟩

/-- A placed command word is run by the next step, which takes it off the host's list. -/
theorem step_placeCommand (s : State) (v : Word) :
    step (s.placeCommand v) = exec (decodeCommand v) { s.placeCommand v with events := s.events } :=
  step_wr_cmd (hostNext_of_idle rfl rfl)

/-- Settles O9: a command word by the host's move, a token by the block's. -/
theorem placedWordIsRunNext : Obligations.PlacedWordIsRunNext := by
  unfold Obligations.PlacedWordIsRunNext
  intro s nbits w i hpc h
  rcases decodeTableWord_cases h with ⟨rfl, rfl⟩ | ⟨h32, hlen, rest, hd⟩
  · exact ⟨_, step_placeCommand s _, rfl, rfl, rfl, rfl⟩
  · rw [← tableBytes_length (nbits / 8) w] at hlen
    obtain ⟨turns, hstep⟩ := step_placeToken (s := s) (by omega) hlen hd
    rw [State.withFetchWord, if_neg h32]
    exact ⟨_, hstep, rfl, rfl, rfl, rfl⟩

end Sys2Proof.Machine
end

section
/-!
PROOFS. PACK (40_pack.md): the packed byte and its bits, the image as rows of packed bytes, and the PACK
iteration of the machine (O8, O24, O51, O52).
-/
namespace Sys2Proof.Machine

/-! ### The bits of a packed byte (R50, R69) -/

/-- Bit 7 is the leftmost pixel, bit 0 the rightmost. -/
theorem packBits_bits (a b c d e f g h : Bool) :
    (packBits a b c d e f g h).getLsbD 7 = a ∧ (packBits a b c d e f g h).getLsbD 6 = b ∧
    (packBits a b c d e f g h).getLsbD 5 = c ∧ (packBits a b c d e f g h).getLsbD 4 = d ∧
    (packBits a b c d e f g h).getLsbD 3 = e ∧ (packBits a b c d e f g h).getLsbD 2 = f ∧
    (packBits a b c d e f g h).getLsbD 1 = g ∧ (packBits a b c d e f g h).getLsbD 0 = h :=
  Instr.pixel8.inj (decodePacked_packBits a b c d e f g h)

/-- The sum of R69 is the encoding of the eight pixels of the group (R50). -/
theorem encode_group (src : PixelSource) (y g : Nat) :
    encode (src.group y g) = .packed (Codec.packedByte src y g) := by
  have weight (p : Bool) (k : Nat) : (if p then k else 0) = p.toNat * k := by cases p <;> simp
  simp [PixelSource.group, encode, packBits, Codec.packedByte, List.range_succ, weight, Nat.add_assoc]

theorem packedByte_getLsbD (src : PixelSource) (y g : Nat) {j : Nat} (hj : j < 8) :
    (Codec.packedByte src y g).getLsbD (7 - j) = src.isOn (8 * g + j) y := by
  obtain ⟨h0, h1, h2, h3, h4, h5, h6, h7⟩ := Instr.pixel8.inj (decodePacked_of_encode (encode_group src y g))
  interval_cases j
  · exact h0
  · exact h1
  · exact h2
  · exact h3
  · exact h4
  · exact h5
  · exact h6
  · exact h7

/-- The sum of R69 fits a byte: at most all eight weights count. -/
theorem packedByte_toNat (src : PixelSource) (y g : Nat) :
    (Codec.packedByte src y g).toNat =
      ∑ j ∈ Finset.range 8, (if src.isOn (8 * g + j) y then 2 ^ (7 - j) else 0) := by
  have hle : ∑ j ∈ Finset.range 8, (if src.isOn (8 * g + j) y then 2 ^ (7 - j) else 0) ≤
      ∑ j ∈ Finset.range 8, 2 ^ (7 - j) := by
    refine Finset.sum_le_sum fun j _ => ?_
    split
    · exact le_rfl
    · exact Nat.zero_le _
  exact (BitVec.toNat_ofNat _ 8).trans (Nat.mod_eq_of_lt (lt_of_le_of_lt hle (by decide)))

/-! ### The image, row by row (R65 to R68) -/

/-- What Pack answers when it succeeds. -/
theorem pack_ok {w h : Nat} {src : PixelSource} {out : List Byte} (hp : Codec.pack w h src = .ok out) :
    w % 8 = 0 ∧
    out = (List.range h).flatMap fun y => (List.range (w / 8)).map fun g => Codec.packedByte src y g := by
  unfold Codec.pack at hp
  split at hp
  next => cases hp
  next hw => cases hp; exact ⟨not_not.1 hw, rfl⟩

/-- Rows of equal length one after another: the rows before row `y` put its items at `y * d`. -/
theorem getElem?_flatMap_range {α : Type} {row : Nat → List α} {d : Nat} (hrow : ∀ y, (row y).length = d)
    {h y g : Nat} (hy : y < h) (hg : g < d) :
    ((List.range h).flatMap row)[y * d + g]? = (row y)[g]? := by
  induction h with
  | zero => exact absurd hy (Nat.not_lt_zero y)
  | succ h ih =>
    have hlen : ((List.range h).flatMap row).length = h * d := by simp [List.length_flatMap, hrow]
    rw [List.range_succ, List.flatMap_append, List.flatMap_singleton]
    rcases Nat.lt_succ_iff_lt_or_eq.1 hy with hlt | rfl
    · have hin : y * d + g < h * d := by
        calc y * d + g < (y + 1) * d := by rw [Nat.succ_mul]; omega
          _ ≤ h * d := Nat.mul_le_mul_right d hlt
      rw [List.getElem?_append_left (by omega), ih hlt]
    · rw [List.getElem?_append_right (by omega), hlen, Nat.add_sub_cancel_left]

/-- Where Pack puts the byte of row `y`, group `g` (R68). -/
theorem pack_getElem? {w h : Nat} {src : PixelSource} {out : List Byte} (hp : Codec.pack w h src = .ok out)
    {y g : Nat} (hy : y < h) (hg : g < w / 8) :
    out[y * (w / 8) + g]? = some (Codec.packedByte src y g) := by
  rw [(pack_ok hp).2, getElem?_flatMap_range (by simp) hy hg]
  simp [hg]

/-- Settles O51: `h` rows of `w / 8` bytes each. -/
theorem packedLengthIsExact : Obligations.PackedLengthIsExact := by
  unfold Obligations.PackedLengthIsExact
  intro w h src out hp
  rw [(pack_ok hp).2]
  simp [List.length_flatMap]

/-- Settles O52: the byte stands where `pack_getElem?` says, and column `x` is pixel `x % 8` of group `x / 8`,
the last group being whole because 8 divides the width. -/
theorem packedPixelHasItsBit : Obligations.PackedPixelHasItsBit := by
  unfold Obligations.PackedPixelHasItsBit
  intro w h src out hp
  refine ⟨fun y hy g hg => ⟨_, pack_getElem? hp hy hg, packedByte_toNat src y g⟩, fun x hx y hy => ?_⟩
  have hw : w % 8 = 0 := (pack_ok hp).1
  refine ⟨_, pack_getElem? hp hy (by omega), ?_⟩
  rw [packedByte_getLsbD src y (x / 8) (Nat.mod_lt x (by decide)), Nat.div_add_mod]

/-! ### The PACK iteration of the machine (R72) -/

/-- The block's step of a PACK with rows left and at least one group in a row runs the group at the cursor. -/
theorem step_pack_group {s u : State} (hn : s.blockNext u) (hu : u.iterating .pack)
    (hy : u.work.y < u.work.h.toNat) (hw : 0 < u.work.w.toNat / 8) :
    step s = exec (u.work.px.group u.work.y u.work.g) u := by
  obtain ⟨hc, hop⟩ := hu
  have hleft : ¬ (u.work.h.toNat ≤ u.work.y ∨ u.work.w.toNat / 8 = 0) := by omega
  simp only [step_block hn, State.blockMove, hc, hop, Bool.true_eq_false, if_false, State.packMove,
    if_neg hleft, Move.outcome]

/-- Settles O8: `PixelSource.group` is the eight pixels written out. -/
theorem stepRunsPackedGroup : Obligations.StepRunsPackedGroup := by
  unfold Obligations.StepRunsPackedGroup
  intro s u hn hu hy hw
  exact step_pack_group hn hu hy hw

theorem exec_pixel8 (a b c d e f g h : Bool) (s : State) :
    exec (.pixel8 a b c d e f g h) s = .next (s.emitPacked (packBits a b c d e f g h)) := rfl

/-- Settles O24: the byte of `packBits_bits`, and the two cases of the cursor. -/
theorem packedByteIsAppended : Obligations.PackedByteIsAppended := by
  unfold Obligations.PackedByteIsAppended
  intro s a b c d e f g h
  have hbuf : s.sameBytes (s.emitPacked (packBits a b c d e f g h)) := fun buf _ => by cases buf <;> rfl
  refine ⟨_, packBits a b c d e f g h, exec_pixel8 a b c d e f g h s, rfl, hbuf, ?_, ?_⟩
  · obtain ⟨ha, hb, hc, hd, he, hf, hg, hh⟩ := packBits_bits a b c d e f g h
    rw [ha, hb, hc, hd, he, hf, hg, hh]
  · rcases nextGroup_cases s.work with ⟨hend, hk⟩ | ⟨hmid, hk⟩
    · simp [hk, hend]
    · simp [hk, hmid]

end Sys2Proof.Machine
end

section
/-!
PROOFS. ENCODE (41_encode.md): the run measured at a cursor, the cases of the encoder's loop, what its output is made
of, and the ENCODE iteration of the machine (O25, O45 to O49).
-/
namespace Sys2Proof.Machine

/-! ### Bytes read in a row -/

theorem Memory.bytes_add (m : Memory) (o j k : Nat) :
    m.bytes o (j + k) = m.bytes o j ++ m.bytes (o + j) k := by
  simp only [Memory.bytes, List.range_add, List.map_append, List.map_map, Function.comp_def, Nat.add_assoc]

theorem Memory.bytes_head? (m : Memory) (o k : Nat) :
    (m.bytes o k).head? = if k = 0 then none else some (m.read o) := by
  cases k with
  | zero => rfl
  | succ k => rw [Memory.bytes_succ]; rfl

theorem Memory.bytes_eq_replicate {m : Memory} {o k : Nat} {v : Byte} (h : ∀ j < k, m.read (o + j) = v) :
    m.bytes o k = List.replicate k v := by
  refine List.eq_replicate_iff.2 ⟨Memory.bytes_length m o k, fun b hb => ?_⟩
  obtain ⟨j, hj, rfl⟩ := List.mem_map.1 hb
  exact h j (List.mem_range.1 hj)

/-! ### The capped run (R77) -/

theorem cappedRun_cons_pos (v : Byte) (rest : List Byte) : 1 ≤ cappedRun (v :: rest) := by
  simp only [cappedRun]
  omega

theorem cappedRun_le_255 (bs : List Byte) : cappedRun bs ≤ 255 := by
  cases bs with
  | nil => exact Nat.zero_le 255
  | cons v rest => exact Nat.min_le_left _ _

/-- The bytes of the run are copies of the first. -/
theorem take_cappedRun (v : Byte) (rest : List Byte) :
    (v :: rest).take (cappedRun (v :: rest)) = List.replicate (cappedRun (v :: rest)) v := by
  have hlen : ((v :: rest).take (cappedRun (v :: rest))).length = cappedRun (v :: rest) :=
    List.length_take_of_le (cappedRun_le_length _)
  have hrun : (v :: rest).take (cappedRun (v :: rest)) <+: v :: rest.takeWhile (· == v) := by
    refine List.prefix_of_prefix_length_le (List.take_prefix _ _)
      (List.cons_prefix_cons.2 ⟨rfl, List.takeWhile_prefix _⟩) ?_
    rw [hlen, cappedRun, List.length_cons]
    omega
  refine List.eq_replicate_iff.2 ⟨hlen, fun b hb => ?_⟩
  rcases List.mem_cons.1 (hrun.subset hb) with rfl | hb
  · rfl
  · exact beq_iff_eq.1 (List.mem_takeWhile_imp (p := (· == v)) hb)

/-- The measure of at least one copy of `v` and what follows it. -/
theorem cappedRun_replicate_append {n : Nat} (hn : 0 < n) (v : Byte) (tail : List Byte) :
    cappedRun (List.replicate n v ++ tail) = min 255 (n + (tail.takeWhile (· == v)).length) := by
  obtain ⟨k, rfl⟩ := Nat.exists_eq_add_one_of_ne_zero (Nat.ne_of_gt hn)
  rw [List.replicate_succ, List.cons_append, cappedRun,
    List.takeWhile_append_of_pos fun b hb => beq_iff_eq.2 (List.eq_of_mem_replicate hb), List.length_append,
    List.length_replicate]
  omega

/-- The measure of a stretch of copies that fills the cap, ends the data, or ends at another byte. -/
theorem cappedRun_of_maximal {l : Nat} {v : Byte} {tail : List Byte} (hpos : 1 ≤ l) (hcap : l ≤ 255)
    (hend : l = 255 ∨ tail.head? ≠ some v) : cappedRun (List.replicate l v ++ tail) = l := by
  rw [cappedRun_replicate_append hpos]
  rcases hend with rfl | hend
  · exact Nat.min_eq_left (Nat.le_add_right _ _)
  · have hnone : tail.takeWhile (· == v) = [] := by
      cases tail with
      | nil => rfl
      | cons b tail => exact List.takeWhile_cons_of_neg fun hb => hend (congrArg some (beq_iff_eq.1 hb))
    rw [hnone, List.length_nil, Nat.add_zero, Nat.min_eq_right hcap]

/-! ### The loop of R75, case by case -/

/-- The bytes of steps 2, 3 and 4 (R78 to R80). -/
theorem chooseToken_bytes (e : Byte) (m : Word) (v : Byte) (l : Nat) :
    (chooseToken e m v l).bytes =
      if m.toNat ≤ l then [e, BitVec.ofNat 8 l, v] else if v = e then [e, 1, e] else [v] := by
  unfold chooseToken
  split_ifs <;> rfl

@[simp] theorem encodeLoop_nil (e : Byte) (m : Word) (k : Nat) : Codec.encodeLoop e m k [] = [] := by
  cases k <;> rfl

/-- Step 2: a run that is long enough (R78). -/
theorem encodeLoop_run (e : Byte) {m : Word} (k : Nat) {v : Byte} {rest : List Byte}
    (h : m.toNat ≤ cappedRun (v :: rest)) :
    Codec.encodeLoop e m (k + 1) (v :: rest) =
      [e, BitVec.ofNat 8 (cappedRun (v :: rest)), v] ++
        Codec.encodeLoop e m k ((v :: rest).drop (cappedRun (v :: rest))) := by
  simp only [Codec.encodeLoop, chooseToken_bytes, tokenAdvance, if_pos h]

/-- Step 3: the escape byte, its run too short (R79). -/
theorem encodeLoop_esc {e : Byte} {m : Word} (k : Nat) {rest : List Byte} (h : cappedRun (e :: rest) < m.toNat) :
    Codec.encodeLoop e m (k + 1) (e :: rest) = [e, 1, e] ++ Codec.encodeLoop e m k rest := by
  simp only [Codec.encodeLoop, chooseToken_bytes, tokenAdvance, if_neg (Nat.not_le.2 h), if_true, List.drop_one,
    List.tail_cons]

/-- Step 4: another byte, its run too short (R80). -/
theorem encodeLoop_lit {e v : Byte} {m : Word} (k : Nat) {rest : List Byte} (h : cappedRun (v :: rest) < m.toNat)
    (hv : v ≠ e) : Codec.encodeLoop e m (k + 1) (v :: rest) = [v] ++ Codec.encodeLoop e m k rest := by
  simp only [Codec.encodeLoop, chooseToken_bytes, tokenAdvance, if_neg (Nat.not_le.2 h), if_neg hv, List.drop_one,
    List.tail_cons]

theorem encode_eq_loop {m : Word} (hm : 2 ≤ m.toNat) (data : List Byte) (e : Byte) :
    Codec.encode data e m = .ok (Codec.encodeLoop e m data.length data) := by
  rw [Codec.encode, if_neg (Nat.not_lt.2 hm)]

/-- What Encode answers when it succeeds (R76). -/
theorem encode_ok {data out : List Byte} {e : Byte} {m : Word} (h : Codec.encode data e m = .ok out) :
    2 ≤ m.toNat ∧ out = Codec.encodeLoop e m data.length data := by
  unfold Codec.encode at h
  split at h
  next => cases h
  next hm => cases h; exact ⟨Nat.not_lt.1 hm, rfl⟩

/-! ### What the output is made of -/

/-- `out` is `data` token by token: copies as a Run whose count is at least `m` and fits a byte, an escape byte as an
Escaped literal, another byte as a Literal. It leaves out that the encoder takes the longest run it can. -/
inductive EncodesTo (e : Byte) (m : Word) : List Byte → List Byte → Prop
  | nil : EncodesTo e m [] []
  | run (n : Nat) (v : Byte) (data out : List Byte) (long : m.toNat ≤ n) (fits : n ≤ 255)
      (rest : EncodesTo e m data out) :
      EncodesTo e m (List.replicate n v ++ data) (e :: BitVec.ofNat 8 n :: v :: out)
  | esc (data out : List Byte) (rest : EncodesTo e m data out) : EncodesTo e m (e :: data) (e :: 1 :: e :: out)
  | lit (v : Byte) (data out : List Byte) (other : v ≠ e) (rest : EncodesTo e m data out) :
      EncodesTo e m (v :: data) (v :: out)

/-- The loop's output, by induction on its bound, along the three steps. -/
theorem encodeLoop_encodesTo (e : Byte) (m : Word) {k : Nat} {data : List Byte} (hk : data.length ≤ k) :
    EncodesTo e m data (Codec.encodeLoop e m k data) := by
  induction k generalizing data with
  | zero =>
    rw [List.eq_nil_of_length_eq_zero (Nat.le_zero.1 hk)]
    exact .nil
  | succ k ih =>
    cases data with
    | nil => exact .nil
    | cons v rest =>
      have hrest : rest.length ≤ k := Nat.le_of_succ_le_succ hk
      rcases Nat.lt_or_ge (cappedRun (v :: rest)) m.toNat with hshort | hlong
      · by_cases hv : v = e
        · subst hv
          rw [encodeLoop_esc k hshort]
          exact .esc _ _ (ih hrest)
        · rw [encodeLoop_lit k hshort hv]
          exact .lit _ _ _ hv (ih hrest)
      · have hdrop : ((v :: rest).drop (cappedRun (v :: rest))).length ≤ k := by
          have hpos := cappedRun_cons_pos v rest
          rw [List.length_drop, List.length_cons]
          omega
        have htoken := EncodesTo.run _ v _ _ hlong (cappedRun_le_255 _) (ih hdrop)
        rw [← take_cappedRun, List.take_append_drop] at htoken
        rw [encodeLoop_run e k hlong]
        exact htoken

theorem encodesTo_of_encode {data out : List Byte} {e : Byte} {m : Word} (h : Codec.encode data e m = .ok out) :
    2 ≤ m.toNat ∧ EncodesTo e m data out := by
  obtain ⟨hm, rfl⟩ := encode_ok h
  exact ⟨hm, encodeLoop_encodesTo e m le_rfl⟩

/-! ### Decoding the output (R85, R93 to R95) -/

theorem decodeFrom_lit {e b : Byte} (hb : b ≠ e) (pc : Nat) (rest : List Byte) :
    Codec.decodeFrom e pc (b :: rest) = (Codec.decodeFrom e (pc + 1) rest).map (b :: ·) := by
  rcases rest with _ | ⟨c, _ | ⟨v, rest⟩⟩
  · exact if_pos hb
  · exact if_pos hb
  · exact if_pos hb

theorem decodeFrom_run (e : Byte) (pc : Nat) {c : Byte} (hc : 2 ≤ c.toNat) (v : Byte) (rest : List Byte) :
    Codec.decodeFrom e pc (e :: c :: v :: rest) =
      (Codec.decodeFrom e (pc + 3) rest).map (List.replicate c.toNat v ++ ·) := by
  obtain ⟨h0, h1⟩ := (two_le_count_iff c).1 hc
  rw [Codec.decodeFrom, if_neg (not_not.2 rfl), if_neg h0, if_neg h1]

theorem decodeFrom_esc (e : Byte) (pc : Nat) (rest : List Byte) :
    Codec.decodeFrom e pc (e :: 1 :: e :: rest) = (Codec.decodeFrom e (pc + 3) rest).map (e :: ·) := by
  rw [Codec.decodeFrom, if_neg (not_not.2 rfl), if_neg (by decide), if_pos rfl, if_neg (not_not.2 rfl)]

/-- A count of at most 255 is what its byte says. -/
theorem toNat_count {n : Nat} (h : n ≤ 255) : (BitVec.ofNat 8 n).toNat = n :=
  (BitVec.toNat_ofNat n 8).trans (Nat.mod_eq_of_lt (Nat.lt_succ_of_le h))

/-- Each token decodes to the bytes it stands for. -/
theorem EncodesTo.decodeFrom {e : Byte} {m : Word} (hm : 2 ≤ m.toNat) {data out : List Byte}
    (h : EncodesTo e m data out) (pc : Nat) : Codec.decodeFrom e pc out = .ok data := by
  induction h generalizing pc with
  | nil => rfl
  | run n v data out long fits _ ih =>
    have hcount := toNat_count fits
    rw [decodeFrom_run e pc (by omega), ih, hcount]
    rfl
  | esc data out _ ih => rw [decodeFrom_esc, ih]; rfl
  | lit v data out other _ ih => rw [decodeFrom_lit other, ih]; rfl

/-! ### Length, and data in which no run is long enough (R83, R86) -/

/-- A Literal, or an Escaped literal of the escape byte. -/
def bareToken (e b : Byte) : List Byte := if b = e then [e, 1, e] else [b]

theorem EncodesTo.length_le {e : Byte} {m : Word} (hm : 2 ≤ m.toNat) {data out : List Byte}
    (h : EncodesTo e m data out) : out.length ≤ 3 * data.length := by
  induction h with
  | nil => exact Nat.le_refl 0
  | run n v data out long _ _ ih =>
    simp only [List.length_cons, List.length_append, List.length_replicate]
    omega
  | esc data out _ ih | lit v data out _ _ ih =>
    simp only [List.length_cons]
    omega

/-- No run of `data`, capped at 255, reaches `m`: every byte stands alone. -/
theorem EncodesTo.eq_bareTokens {e : Byte} {m : Word} {data out : List Byte} (h : EncodesTo e m data out)
    (hm : min 255 data.length < m.toNat) : out = data.flatMap (bareToken e) := by
  induction h with
  | nil => rfl
  | run n v data out long fits _ _ =>
    rw [List.length_append, List.length_replicate] at hm
    omega
  | esc data out _ ih =>
    rw [List.length_cons] at hm
    rw [List.flatMap_cons, ← ih (by omega), bareToken, if_pos rfl]
    rfl
  | lit v data out other _ ih =>
    rw [List.length_cons] at hm
    rw [List.flatMap_cons, ← ih (by omega), bareToken, if_neg other]
    rfl

theorem encode_eq_bareTokens {data : List Byte} {m : Word} (hm : 2 ≤ m.toNat)
    (hrun : min 255 data.length < m.toNat) (e : Byte) :
    Codec.encode data e m = .ok (data.flatMap (bareToken e)) := by
  rw [encode_eq_loop hm, (encodeLoop_encodesTo e m le_rfl).eq_bareTokens hrun]

/-! ### A run longer than 255 (R82) -/

/-- Copies of one byte, long enough for a Run: one is emitted, of at most 255. -/
theorem encodeLoop_replicate_run (e v : Byte) {m : Word} (k : Nat) {n : Nat} (hn : 0 < n)
    (hm : m.toNat ≤ min 255 n) :
    Codec.encodeLoop e m (k + 1) (List.replicate n v) =
      [e, BitVec.ofNat 8 (min 255 n), v] ++ Codec.encodeLoop e m k (List.replicate (n - min 255 n) v) := by
  have hrun : cappedRun (List.replicate n v) = min 255 n := by
    simpa using cappedRun_replicate_append hn v []
  obtain ⟨j, rfl⟩ := Nat.exists_eq_add_one_of_ne_zero (Nat.ne_of_gt hn)
  rw [List.replicate_succ] at hrun ⊢
  rw [encodeLoop_run e k (hrun ▸ hm), hrun, ← List.replicate_succ, List.drop_replicate]

/-- The remainder of a run: one Run, or each byte alone. -/
theorem encodeLoop_remainder (e v : Byte) {m : Word} {k r : Nat} (hm : 2 ≤ m.toNat) (hr : r < 255) (hk : r ≤ k) :
    Codec.encodeLoop e m k (List.replicate r v) =
      if m.toNat ≤ r then [e, BitVec.ofNat 8 r, v] else (List.replicate r (bareToken e v)).flatten := by
  split
  next hlong =>
    obtain ⟨j, rfl⟩ := Nat.exists_eq_add_one_of_ne_zero (show k ≠ 0 by omega)
    have hcap : min 255 r = r := Nat.min_eq_right (Nat.le_of_lt hr)
    rw [encodeLoop_replicate_run e v j (by omega) (by omega), hcap, Nat.sub_self, List.replicate_zero,
      encodeLoop_nil, List.append_nil]
  next hshort =>
    have htokens := encodeLoop_encodesTo e m (data := List.replicate r v) (by simpa using hk)
    rw [htokens.eq_bareTokens (by rw [List.length_replicate]; omega), List.flatMap_replicate]

/-- The whole run, by induction on the number of Runs of 255. -/
theorem encodeLoop_replicate (e v : Byte) {m : Word} {k q r : Nat} (hm : 2 ≤ m.toNat) (hcap : m.toNat ≤ 255)
    (hr : r < 255) (hk : 255 * q + r ≤ k) :
    Codec.encodeLoop e m k (List.replicate (255 * q + r) v) =
      (List.replicate q [e, 255, v]).flatten ++
        if m.toNat ≤ r then [e, BitVec.ofNat 8 r, v] else (List.replicate r (bareToken e v)).flatten := by
  induction q generalizing k with
  | zero => simpa using encodeLoop_remainder e v hm hr (by simpa using hk)
  | succ q ih =>
    obtain ⟨j, rfl⟩ := Nat.exists_eq_add_one_of_ne_zero (show k ≠ 0 by omega)
    have hpiece : min 255 (255 * (q + 1) + r) = 255 := by omega
    have hrest : 255 * (q + 1) + r - 255 = 255 * q + r := by omega
    rw [encodeLoop_replicate_run e v j (by omega) (by omega), hpiece, hrest, ih (by omega), List.replicate_succ,
      List.flatten_cons, List.append_assoc]
    rfl

/-! ### Adjacent zero bytes (R87) -/

theorem noZeroPair_iff_isChain (bs : List Byte) :
    noZeroPair bs ↔ bs.IsChain fun a b => ¬ (a = 0 ∧ b = 0) := by
  simp only [noZeroPair, List.isChain_iff_getElem, List.getElem?_eq_some_iff]
  constructor
  · rintro h i hi ⟨ha, hb⟩
    exact h i ⟨⟨by omega, ha⟩, hi, hb⟩
  · rintro h i ⟨⟨_, ha⟩, hi, hb⟩
    exact h i hi ⟨ha, hb⟩

theorem noZeroPair_cons_iff (b : Byte) (bs : List Byte) :
    noZeroPair (b :: bs) ↔ ¬ (b = 0 ∧ bs.head? = some 0) ∧ noZeroPair bs := by
  simp only [noZeroPair_iff_isChain, List.isChain_cons]
  refine and_congr_left fun _ => ⟨fun h hz => h 0 hz.2 ⟨hz.1, rfl⟩, ?_⟩
  rintro h y hy ⟨hb, rfl⟩
  exact h ⟨hb, hy⟩

theorem noZeroPair_of_append {as bs : List Byte} (h : noZeroPair (as ++ bs)) : noZeroPair bs := by
  rw [noZeroPair_iff_isChain] at h ⊢
  exact h.right_of_append

/-- At least two copies of a byte hold a zero pair if the byte is 0. -/
theorem ne_zero_of_noZeroPair_replicate {n : Nat} (hn : 2 ≤ n) {v : Byte} {bs : List Byte}
    (h : noZeroPair (List.replicate n v ++ bs)) : v ≠ 0 := by
  obtain ⟨k, rfl⟩ := Nat.exists_eq_add_of_le' hn
  rintro rfl
  exact h 0 ⟨rfl, rfl⟩

theorem noZeroPair_cons_of_ne {b : Byte} (hb : b ≠ 0) (bs : List Byte) :
    noZeroPair (b :: bs) ↔ noZeroPair bs := by
  simp only [noZeroPair_cons_iff, hb, false_and, not_false_eq_true, true_and]

/-- The output begins with 0 only where the data does, so that two
tokens put a zero pair between them only where two bytes of the data do. -/
theorem EncodesTo.noZeroPair_of_data {e : Byte} {m : Word} (hm : 2 ≤ m.toNat) (he : e ≠ 0) {data out : List Byte}
    (h : EncodesTo e m data out) (hdata : noZeroPair data) :
    noZeroPair out ∧ (out.head? = some 0 → data.head? = some 0) := by
  have escape_first {bs : List Byte} : (e :: bs).head? ≠ some 0 := fun h0 => he (Option.some.inj h0)
  induction h with
  | nil => exact ⟨hdata, id⟩
  | run n v data out long fits _ ih =>
    have hv : v ≠ 0 := ne_zero_of_noZeroPair_replicate (hm.trans long) hdata
    have hcount : BitVec.ofNat 8 n ≠ 0 :=
      ((two_le_count_iff _).1 ((toNat_count fits).symm ▸ hm.trans long)).1
    rw [noZeroPair_cons_of_ne he, noZeroPair_cons_of_ne hcount, noZeroPair_cons_of_ne hv]
    exact ⟨(ih (noZeroPair_of_append hdata)).1, fun h0 => absurd h0 escape_first⟩
  | esc data out _ ih =>
    rw [noZeroPair_cons_of_ne he, noZeroPair_cons_of_ne (by decide), noZeroPair_cons_of_ne he]
    exact ⟨(ih ((noZeroPair_cons_of_ne he _).1 hdata)).1, fun h0 => absurd h0 escape_first⟩
  | lit v data out _ _ ih =>
    obtain ⟨hpair, htail⟩ := (noZeroPair_cons_iff _ _).1 hdata
    obtain ⟨hout, hhead⟩ := ih htail
    exact ⟨(noZeroPair_cons_iff _ _).2 ⟨fun ⟨hv, h0⟩ => hpair ⟨hv, hhead h0⟩, hout⟩, id⟩

/-! ### The ENCODE iteration of the machine (R89) -/

/-- The bytes an iteration reads are enough to measure the run: it ends in them, or fills the cap. -/
theorem cappedRun_window {s : State} {l : Nat} (hpos : 1 ≤ l) (hcap : l ≤ 255)
    (hin : s.work.pc + l ≤ s.work.n.toNat)
    (hrun : ∀ k < l, s.inBuf.read (s.work.pc + k) = s.inBuf.read s.work.pc)
    (hend : l = 255 ∨ s.work.pc + l = s.work.n.toNat ∨
      s.inBuf.read (s.work.pc + l) ≠ s.inBuf.read s.work.pc) :
    ∃ rest, s.window 256 = s.inBuf.read s.work.pc :: rest ∧ cappedRun (s.window 256) = l := by
  obtain ⟨j, hj⟩ := Nat.exists_eq_add_of_le (show l ≤ min 256 (s.work.n.toNat - s.work.pc) by omega)
  have hwin : s.window 256 =
      List.replicate l (s.inBuf.read s.work.pc) ++ s.inBuf.bytes (s.work.pc + l) j := by
    rw [State.window, hj, Memory.bytes_add, Memory.bytes_eq_replicate hrun]
  have hstop : l = 255 ∨ (s.inBuf.bytes (s.work.pc + l) j).head? ≠ some (s.inBuf.read s.work.pc) := by
    rcases hend with hfull | hlast | hother
    · exact .inl hfull
    · have hj0 : j = 0 := by omega
      exact .inr (by simp [Memory.bytes_head?, hj0])
    · exact .inr (by simp [Memory.bytes_head?, hother])
  obtain ⟨i, rfl⟩ := Nat.exists_eq_add_of_le' hpos
  refine ⟨_, hwin, ?_⟩
  rw [hwin]
  exact cappedRun_of_maximal hpos hcap hstop

/-- The block's step of an ENCODE with input left emits the token chosen for the run at the cursor. -/
theorem step_encode_token {s u : State} (hn : s.blockNext u) (hu : u.iterating .encode) {v : Byte}
    {rest : List Byte} (hw : u.window 256 = v :: rest) :
    step s = .next (u.emit (chooseToken u.work.e u.work.m v (cappedRun (u.window 256))).bytes
      (tokenAdvance u.work.m (cappedRun (u.window 256)))) := by
  obtain ⟨hc, hop⟩ := hu
  simp only [step_block hn, State.blockMove, hc, hop, Bool.true_eq_false, if_false, State.encodeMove, hw,
    Move.outcome]

/-! ### The obligations -/

/-- Settles O45: the output is made of tokens, and each decodes to its own bytes. -/
theorem decodeUndoesEncode : Obligations.DecodeUndoesEncode := by
  unfold Obligations.DecodeUndoesEncode
  intro data e m hm
  exact ⟨_, encode_eq_loop hm data e, (encodeLoop_encodesTo e m le_rfl).decodeFrom hm 0⟩

/-- Settles O25: the token by `step_encode_token`, its room by the two cases of `State.emit`. -/
theorem encodeIterationEmitsToken : Obligations.EncodeIterationEmitsToken := by
  unfold Obligations.EncodeIterationEmitsToken
  intro s u l hn hu hpos hcap hin hrun hend
  obtain ⟨rest, hwin, hl⟩ := cappedRun_window hpos hcap hin hrun hend
  have hstep := step_encode_token hn hu hwin
  rw [hl, chooseToken_bytes] at hstep
  refine ⟨fun hroom => ?_, fun hfull hclean => ?_⟩
  · rw [emit_room hroom] at hstep
    refine ⟨_, hstep, rfl, fun b _ => by cases b <;> rfl, ?_⟩
    rw [tokenAdvance, apply_ite (u.work.pc + ·)]
  · rw [emit_full hfull] at hstep
    exact ⟨_, hstep, raise_failsWith hclean (by decide) 0⟩

/-- Settles O46: the bound token by token, and escape bytes that each stand alone meet it. -/
theorem encodedLengthAtMostTriple : Obligations.EncodedLengthAtMostTriple := by
  unfold Obligations.EncodedLengthAtMostTriple
  refine ⟨fun data out e m h => ?_, fun n e m hn hm => ?_⟩
  · obtain ⟨hm, htokens⟩ := encodesTo_of_encode h
    exact htokens.length_le hm
  · refine ⟨_, encode_eq_bareTokens hm (by rw [List.length_replicate]; omega) e, ?_⟩
    simp [List.flatMap_replicate, bareToken, Nat.mul_comm]

/-- Settles O47: the loop on copies of one byte, the remainder's tokens by whether the byte is the escape byte. -/
theorem longRunIsSplitAt255 : Obligations.LongRunIsSplitAt255 := by
  unfold Obligations.LongRunIsSplitAt255
  intro q r v e m hr hm hcap
  rw [encode_eq_loop hm, encodeLoop_replicate e v hm hcap hr (by rw [List.length_replicate])]
  by_cases hv : v = e
  · simp only [bareToken, if_pos hv]
  · simp only [bareToken, if_neg hv, List.flatten_replicate_singleton]

/-- Settles O48: no capped run reaches 256. -/
theorem minRunAbove255EmitsNoRun : Obligations.MinRunAbove255EmitsNoRun := by
  unfold Obligations.MinRunAbove255EmitsNoRun
  intro data e m hm
  exact encode_eq_bareTokens (by omega) (by omega) e

/-- Settles O49: the property token by token, and its three examples by evaluation. -/
theorem encoderAddsNoZeroPair : Obligations.EncoderAddsNoZeroPair := by
  unfold Obligations.EncoderAddsNoZeroPair
  refine ⟨fun data out e m he hdata h => ?_, rfl, rfl, ?_, rfl⟩
  · obtain ⟨hm, htokens⟩ := encodesTo_of_encode h
    exact (htokens.noZeroPair_of_data hm he hdata).1
  · rw [noZeroPair_iff_isChain]
    decide

end Sys2Proof.Machine
end

section
/-!
PROOFS. DECODE (42_decode.md): the function at each of the seven patterns, the output of a token under the capacity
check, the block's step at a pattern, and the length of the output (O7, O17 to O23, O50).
-/
namespace Sys2Proof.Machine

/-! ### The loop of R92 at an illegal pattern (R96 to R98) -/

theorem decodeFrom_illegalEscValue {e v : Byte} (hv : v ≠ e) (pc : Nat) (rest : List Byte) :
    Codec.decodeFrom e pc (e :: 1 :: v :: rest) = .error (.malformedToken, pc + 2) := by
  rw [Codec.decodeFrom, if_neg (not_not.2 rfl), if_neg (by decide), if_pos rfl, if_pos hv]

theorem decodeFrom_illegalCount0 (e : Byte) (pc : Nat) (rest : List Byte) :
    Codec.decodeFrom e pc (e :: 0 :: rest) = .error (.malformedToken, pc + 1) := by
  cases rest with
  | nil => rw [Codec.decodeFrom, if_neg (not_not.2 rfl), if_pos rfl]
  | cons v rest => rw [Codec.decodeFrom, if_neg (not_not.2 rfl), if_pos rfl]

theorem decodeFrom_truncCount (e : Byte) (pc : Nat) :
    Codec.decodeFrom e pc [e] = .error (.truncatedStream, pc + 1) := by
  rw [Codec.decodeFrom, if_neg (not_not.2 rfl)]

theorem decodeFrom_truncValue (e : Byte) {c : Byte} (hc : c ≠ 0) (pc : Nat) :
    Codec.decodeFrom e pc [e, c] = .error (.truncatedStream, pc + 2) := by
  rw [Codec.decodeFrom, if_neg (not_not.2 rfl), if_neg hc]

/-! ### The length of the output (R103) -/

theorem map_eq_ok {f : List Byte → List Byte} {x : Except CodecError (List Byte)} {out : List Byte}
    (h : x.map f = .ok out) : ∃ tail, x = .ok tail ∧ f tail = out := by
  cases x with
  | error err => cases h
  | ok tail => exact ⟨tail, rfl, Except.ok.inj h⟩

/-- A nonempty stream that decodes begins with one of the three tokens; the illegal patterns do not decode. -/
theorem decodeFrom_ok_cases {e b : Byte} {pc : Nat} {bs out : List Byte}
    (h : Codec.decodeFrom e pc (b :: bs) = .ok out) :
    ∃ rest tail next, Codec.decodeFrom e next rest = .ok tail ∧
      ((∃ v, v ≠ e ∧ b :: bs = v :: rest ∧ out = v :: tail) ∨
        (b :: bs = e :: 1 :: e :: rest ∧ out = e :: tail) ∨
        (∃ c v, 2 ≤ c.toNat ∧ b :: bs = e :: c :: v :: rest ∧ out = List.replicate c.toNat v ++ tail)) := by
  obtain ⟨i, rest, hd⟩ := decodeToken_total e b bs
  rcases decodeToken_cases hd with ⟨v, hv, _, hs⟩ | ⟨_, hs, _⟩ | ⟨_, hs⟩ | ⟨c, hc, _, hs, _⟩ | ⟨_, hs⟩ |
    ⟨v, hv, _, hs⟩ | ⟨c, v, hc0, hc1, _, hs⟩ <;> rw [hs] at h
  · rw [decodeFrom_lit hv] at h
    obtain ⟨tail, htail, rfl⟩ := map_eq_ok h
    exact ⟨rest, tail, _, htail, .inl ⟨v, hv, hs, rfl⟩⟩
  · cases (decodeFrom_truncCount e pc).symm.trans h
  · cases (decodeFrom_illegalCount0 e pc rest).symm.trans h
  · cases (decodeFrom_truncValue e hc pc).symm.trans h
  · rw [decodeFrom_esc] at h
    obtain ⟨tail, htail, rfl⟩ := map_eq_ok h
    exact ⟨rest, tail, _, htail, .inr (.inl ⟨hs, rfl⟩)⟩
  · cases (decodeFrom_illegalEscValue hv pc rest).symm.trans h
  · have hc : 2 ≤ c.toNat := (two_le_count_iff c).2 ⟨hc0, hc1⟩
    rw [decodeFrom_run e pc hc] at h
    obtain ⟨tail, htail, rfl⟩ := map_eq_ok h
    exact ⟨rest, tail, _, htail, .inr (.inr ⟨c, v, hc, hs, rfl⟩)⟩

/-- A stream that decodes is made of the tokens of its output, the converse of `EncodesTo.decodeFrom`. -/
theorem encodesTo_of_decodeFrom {e : Byte} {pc : Nat} {stream out : List Byte}
    (h : Codec.decodeFrom e pc stream = .ok out) : EncodesTo e 2 out stream := by
  induction hlen : stream.length using Nat.strong_induction_on generalizing pc stream out with
  | _ len ih =>
    subst hlen
    cases stream with
    | nil => cases h; exact .nil
    | cons b bs =>
      obtain ⟨rest, tail, next, htail, htoken⟩ := decodeFrom_ok_cases h
      have htokens (hlt : rest.length < (b :: bs).length) : EncodesTo e 2 tail rest := ih _ hlt htail rfl
      rcases htoken with ⟨v, hv, hs, rfl⟩ | ⟨hs, rfl⟩ | ⟨c, v, hc, hs, rfl⟩ <;> rw [hs] at htokens ⊢
      · exact .lit v tail rest hv (htokens (by simp))
      · exact .esc tail rest (htokens (by simp; omega))
      · have hrun := EncodesTo.run (m := 2) c.toNat v tail rest hc (Nat.le_of_lt_succ c.isLt)
          (htokens (by simp; omega))
        rwa [BitVec.ofNat_toNat, BitVec.setWidth_eq] at hrun

/-- The longest Run stands for 255 bytes and takes 3. -/
theorem EncodesTo.data_length_le {e : Byte} {m : Word} {data out : List Byte} (h : EncodesTo e m data out) :
    data.length ≤ 85 * out.length := by
  induction h with
  | nil => exact Nat.le_refl 0
  | run n v data out _ fits _ ih =>
    simp only [List.length_cons, List.length_append, List.length_replicate]
    omega
  | esc data out _ ih | lit v data out _ _ ih =>
    simp only [List.length_cons]
    omega

/-! ### The instructions (R93 to R98, R104) -/

theorem exec_lit (b : Byte) (s : State) : exec (.lit b) s = .next (s.emit [b] 1) := rfl

theorem exec_run (e n v : Byte) (s : State) :
    exec (.run e n v) s = .next (s.emit (List.replicate n.toNat v) 3) := rfl

theorem exec_esc (e : Byte) (s : State) : exec (.esc e) s = .next (s.emit [e] 3) := rfl

theorem exec_illegalEscValue (e v : Byte) (s : State) :
    exec (.illegalEscValue e v) s = .next (s.raise .malformedToken (s.work.pc + 2)) := rfl

theorem exec_illegalCount0 (e : Byte) (s : State) :
    exec (.illegalCount0 e) s = .next (s.raise .malformedToken (s.work.pc + 1)) := rfl

theorem exec_truncCount (e : Byte) (s : State) :
    exec (.truncCount e) s = .next (s.raise .truncatedStream (s.work.pc + 1)) := rfl

theorem exec_truncValue (e c : Byte) (s : State) :
    exec (.truncValue e c) s = .next (s.raise .truncatedStream (s.work.pc + 2)) := rfl

/-- With room, appended output shows in ACC and the cursor only. -/
theorem emit_room_frame {s : State} {out : List Byte}
    (h : s.work.acc.length + out.length ≤ s.cfg.outCap.val) (k : Nat) :
    s.onlyWork (s.emit out k) ∧ s.sameBytes (s.emit out k) ∧
      (s.emit out k).work = { s.work with acc := s.work.acc ++ out, pc := s.work.pc + k } := by
  rw [emit_room h]
  exact ⟨rfl, fun b _ => by cases b <;> rfl, rfl⟩

/-- Without room, the command ends with CapacityExceeded (R104, R126). -/
theorem emit_full_failsWith {s : State} {out : List Byte} (hs : s.spoiled = false)
    (h : s.cfg.outCap.val < s.work.acc.length + out.length) (k : Nat) :
    s.failsWith (s.emit out k) .capacityExceeded 0 := by
  rw [emit_full h]
  exact raise_failsWith hs (by decide) 0

/-! ### The block's step at a pattern (R102, R105) -/

/-- The window of a token begins with the at most three bytes at the cursor. -/
theorem window_of_atCursor {s : State} {bs : List Byte} (hlen : bs.length ≤ 3) (h : s.atCursor bs) :
    ∃ rest, s.window 3 = bs ++ rest := by
  obtain ⟨hin, hbs⟩ := h
  obtain ⟨j, hj⟩ := Nat.exists_eq_add_of_le (show bs.length ≤ min 3 (s.work.n.toNat - s.work.pc) by omega)
  exact ⟨_, by rw [State.window, hj, Memory.bytes_add, hbs]⟩

/-- At the end of the stream the window is what is left. -/
theorem window_of_endsWith {s : State} {bs : List Byte} (hlen : bs.length ≤ 3) (h : s.endsWith bs) :
    s.window 3 = bs := by
  obtain ⟨hend, hbs⟩ := h
  have hleft : min 3 (s.work.n.toNat - s.work.pc) = bs.length := by omega
  rw [State.window, hleft, hbs]

/-- A pattern that is read whatever follows it is run when it is at the cursor. -/
theorem step_decode_atCursor {s u : State} {i : Instr} {bs : List Byte} (hn : s.blockNext u)
    (hu : u.iterating .decode) (hat : u.atCursor bs) (hlen : bs.length ≤ 3)
    (hd : ∀ rest, decodeToken u.work.e (bs ++ rest) = .ok (i, rest)) : step s = exec i u := by
  obtain ⟨rest, hw⟩ := window_of_atCursor hlen hat
  exact step_decode_token (rest := rest) hn hu (by rw [State.fetchToken, hw, hd])

/-- A pattern that ends a stream is run when the stream ends with it at the cursor. -/
theorem step_decode_endsWith {s u : State} {i : Instr} {bs : List Byte} (hn : s.blockNext u)
    (hu : u.iterating .decode) (hend : u.endsWith bs) (hlen : bs.length ≤ 3)
    (hd : decodeToken u.work.e bs = .ok (i, [])) : step s = exec i u :=
  step_decode_token hn hu (by rw [State.fetchToken, window_of_endsWith hlen hend, hd])

/-- Where the stream ends with what is at the cursor, ERR_OFFSET of the first missing byte is its length. -/
theorem errOffset_of_failsWith {s t : State} {code : ResultCode} {bs : List Byte}
    (h : s.failsWith t code (s.work.pc + bs.length)) (hend : s.endsWith bs) : t.reg.errOffset = s.work.n := by
  obtain ⟨hcompletion, -⟩ := h
  have hoff : t.reg.errOffset = BitVec.ofNat 32 (s.work.pc + bs.length) :=
    congrArg Completion.errOffset hcompletion
  rw [hoff, hend.1, BitVec.ofNat_toNat, BitVec.setWidth_eq]

/-! ### The obligations -/

/-- Settles O7: the bytes of the statement are the window of the token fetch. -/
theorem stepRunsDecodedToken : Obligations.StepRunsDecodedToken := by
  unfold Obligations.StepRunsDecodedToken
  intro s u i rest hn hu hd
  exact step_decode_token hn hu hd

/-- Settles O17: the loop's first branch, `State.emit` with room, and the Literal at the cursor. -/
theorem literalEmitsItsByte : Obligations.LiteralEmitsItsByte := by
  unfold Obligations.LiteralEmitsItsByte
  refine ⟨fun e b pc rest hb => decodeFrom_lit hb pc rest, fun s b hroom => ?_, fun s u b hn hu hat hb => ?_⟩
  · exact ⟨_, exec_lit b s, emit_room_frame hroom 1⟩
  · exact step_decode_atCursor hn hu hat (by simp) (decodeToken_lit hb)

/-- Settles O18: a count of at least 2 is neither 00 nor 01, which are no Run. -/
theorem runRepeatsItsValue : Obligations.RunRepeatsItsValue := by
  unfold Obligations.RunRepeatsItsValue
  refine ⟨fun e c v pc rest hc => decodeFrom_run e pc hc v rest, fun s e c v hroom => ?_,
    fun s u c v hn hu hat hc => ?_⟩
  · exact ⟨_, exec_run e c v s, emit_room_frame (by rwa [List.length_replicate]) 3⟩
  · obtain ⟨hc0, hc1⟩ := (two_le_count_iff c).1 hc
    exact step_decode_atCursor hn hu hat (by simp) (decodeToken_run _ hc0 hc1 v)

/-- Settles O19: the pattern of R95 in the function, the instruction and the step. -/
theorem escapedLiteralEmitsEscape : Obligations.EscapedLiteralEmitsEscape := by
  unfold Obligations.EscapedLiteralEmitsEscape
  refine ⟨decodeFrom_esc, fun s e hroom => ?_, fun s u hn hu hat => ?_⟩
  · exact ⟨_, exec_esc e s, emit_room_frame hroom 3⟩
  · exact step_decode_atCursor hn hu hat (by simp) (decodeToken_esc _)

/-- Settles O20: each of the three tokens emits through `State.emit`. -/
theorem tokenOverCapacityFails : Obligations.TokenOverCapacityFails := by
  unfold Obligations.TokenOverCapacityFails
  refine fun s hs => ⟨fun b hfull => ?_, fun e n v hfull => ?_, fun e hfull => ?_⟩
  · exact ⟨_, exec_lit b s, emit_full_failsWith (out := [b]) hs hfull 1⟩
  · exact ⟨_, exec_run e n v s, emit_full_failsWith hs (by rwa [List.length_replicate]) 3⟩
  · exact ⟨_, exec_esc e s, emit_full_failsWith (out := [e]) hs hfull 3⟩

/-- Settles O21: the pattern of R96 raises its error, in the step as in the instruction. -/
theorem escapedValueOtherThanEscapeIsMalformed : Obligations.EscapedValueOtherThanEscapeIsMalformed := by
  unfold Obligations.EscapedValueOtherThanEscapeIsMalformed
  refine ⟨fun e v pc rest hv => decodeFrom_illegalEscValue hv pc rest, fun s e v hs => ?_,
    fun s u v hn hu hat hv hs => ?_⟩
  · exact ⟨_, exec_illegalEscValue e v s, raise_failsWith hs (by decide) _⟩
  · rw [step_decode_atCursor hn hu hat (by simp) (decodeToken_illegalEscValue hv)]
    exact ⟨_, exec_illegalEscValue _ v u, raise_failsWith hs (by decide) _⟩

/-- Settles O22: the count byte is looked at before the value byte, so nothing need follow it. -/
theorem countZeroIsMalformed : Obligations.CountZeroIsMalformed := by
  unfold Obligations.CountZeroIsMalformed
  refine ⟨decodeFrom_illegalCount0, fun s e hs => ?_, fun s u hn hu hat hs => ?_⟩
  · exact ⟨_, exec_illegalCount0 e s, raise_failsWith hs (by decide) _⟩
  · rw [step_decode_atCursor hn hu hat (by simp) (decodeToken_illegalCount0 _)]
    exact ⟨_, exec_illegalCount0 _ u, raise_failsWith hs (by decide) _⟩

/-- Settles O23: the two patterns of R98, each with its offset at the end of the stream. -/
theorem streamEndingInTokenIsTruncated : Obligations.StreamEndingInTokenIsTruncated := by
  unfold Obligations.StreamEndingInTokenIsTruncated
  refine ⟨decodeFrom_truncCount, fun e c pc hc => decodeFrom_truncValue e hc pc, fun s e hs => ?_,
    fun s e c hs => ?_, fun s u hn hu hend hs => ?_, fun s u c hn hu hend hc hs => ?_⟩
  · exact ⟨_, exec_truncCount e s, raise_failsWith hs (by decide) _⟩
  · exact ⟨_, exec_truncValue e c s, raise_failsWith hs (by decide) _⟩
  · rw [step_decode_endsWith hn hu hend (by simp) (decodeToken_truncCount _)]
    have hfails := raise_failsWith (code := .truncatedStream) hs (by decide) (u.work.pc + 1)
    exact ⟨_, exec_truncCount _ u, hfails, errOffset_of_failsWith hfails hend⟩
  · rw [step_decode_endsWith hn hu hend (by simp) (decodeToken_truncValue _ hc)]
    have hfails := raise_failsWith (code := .truncatedStream) hs (by decide) (u.work.pc + 2)
    exact ⟨_, exec_truncValue _ c u, hfails, errOffset_of_failsWith hfails hend⟩

/-- Settles O50: the stream is made of tokens, and none stands for more than 85 times its bytes. -/
theorem decodedLengthAtMost85Times : Obligations.DecodedLengthAtMost85Times := by
  unfold Obligations.DecodedLengthAtMost85Times
  exact ⟨fun stream out e h => (encodesTo_of_decodeFrom h).data_length_le, fun _ => rfl⟩

end Sys2Proof.Machine
end

section
/-!
PROOFS. The host interface (43_host_interface.md): the start of a command, its start checks and its completion, and
the accesses of an idle block (O6, O10, O13 to O16, O30, O32).
-/
namespace Sys2Proof.Machine

/-! ### The start of a command (R112) -/

/-- Settles O6: the host's write is the move of the step. -/
theorem stepRunsCommandWord : Obligations.StepRunsCommandWord := by
  unfold Obligations.StepRunsCommandWord
  intro s u v hn
  exact step_wr_cmd hn

/-- The instruction that starts a command of each operation (R61). -/
def Op.instr : Op → Instr
  | .pack => .pack
  | .encode => .encode
  | .decode => .decode

/-- Idle, the command word of an operation starts it. -/
theorem exec_start_idle {s : State} (hi : s.work.phase = .idle) (op : Op) : exec op.instr s = .next (s.start op) := by
  have hidle : s.work.phase ≠ .busy := by simp [hi]
  cases op <;> exact congrArg Host.Outcome.next (if_neg hidle)

/-- Settles O10: the latched fields are `Working.started`, the rest is the frame of `State.start`. -/
theorem commandStartsAndLatches : Obligations.CommandStartsAndLatches := by
  unfold Obligations.CommandStartsAndLatches
  intro s hi p hp
  obtain ⟨op, rfl⟩ : ∃ op : Op, p = (op.instr, op) := by
    simp only [List.mem_cons, List.not_mem_nil, or_false] at hp
    rcases hp with rfl | rfl | rfl
    · exact ⟨.pack, rfl⟩
    · exact ⟨.encode, rfl⟩
    · exact ⟨.decode, rfl⟩
  have hstatus : (s.start op).status = 1 := by
    show statusWord .none .busy = 1
    decide
  exact ⟨s.start op, exec_start_idle hi op, rfl, rfl, hstatus, rfl, rfl, fun b _ => by cases b <;> rfl⟩

/-! ### The start checks (R113 to R115, R128) -/

/-- The first step of a command is its start checks (R116). -/
theorem step_startChecks {s u : State} (hn : s.blockNext u) (hc : u.work.checked = false) :
    step s = .next u.startChecks := by
  simp only [step_block hn, State.blockMove, if_pos hc, Move.outcome]

theorem startChecks_pack {s : State} (h : s.work.opl = .pack) :
    s.startChecks =
      if s.work.w.toNat % 8 ≠ 0 then s.raise .invalidDimensions 0
      else if s.cfg.outCap.val < s.work.h.toNat * (s.work.w.toNat / 8) then s.raise .capacityExceeded 0
      else s.pass := by
  simp only [State.startChecks, h]

theorem startChecks_encode {s : State} (h : s.work.opl = .encode) :
    s.startChecks =
      if s.work.m.toNat < 2 then s.raise .invalidParameter 0
      else if s.cfg.inCap.val < s.work.n.toNat then s.raise .capacityExceeded 0
      else s.pass := by
  simp only [State.startChecks, h]

theorem startChecks_decode {s : State} (h : s.work.opl = .decode) :
    s.startChecks = if s.cfg.inCap.val < s.work.n.toNat then s.raise .capacityExceeded 0 else s.pass := by
  simp only [State.startChecks, h]

/-- Settles O13: the three branches of PACK's checks. -/
theorem packChecksWidthThenCapacity : Obligations.PackChecksWidthThenCapacity := by
  unfold Obligations.PackChecksWidthThenCapacity
  rintro s u hn ⟨hc, hop⟩ hs
  rw [step_startChecks hn hc, startChecks_pack hop]
  refine ⟨fun hw => ?_, fun hw hfull => ?_, fun hw hroom => ?_⟩
  · rw [if_pos hw]
    exact ⟨_, rfl, raise_failsWith hs (by decide) 0⟩
  · rw [if_neg (not_not.2 hw), if_pos hfull]
    exact ⟨_, rfl, raise_failsWith hs (by decide) 0⟩
  · rw [if_neg (not_not.2 hw), if_neg (Nat.not_lt.2 hroom)]
    rfl

/-- Settles O14: the three branches of ENCODE's checks. -/
theorem encodeChecksMinRunThenCapacity : Obligations.EncodeChecksMinRunThenCapacity := by
  unfold Obligations.EncodeChecksMinRunThenCapacity
  rintro s u hn ⟨hc, hop⟩ hs
  rw [step_startChecks hn hc, startChecks_encode hop]
  refine ⟨fun hm => ?_, fun hm hfull => ?_, fun hm hroom => ?_⟩
  · rw [if_pos hm]
    exact ⟨_, rfl, raise_failsWith hs (by decide) 0⟩
  · rw [if_neg (Nat.not_lt.2 hm), if_pos hfull]
    exact ⟨_, rfl, raise_failsWith hs (by decide) 0⟩
  · rw [if_neg (Nat.not_lt.2 hm), if_neg (Nat.not_lt.2 hroom)]
    rfl

/-- Settles O15: the two branches of DECODE's check. -/
theorem decodeChecksCapacityOnly : Obligations.DecodeChecksCapacityOnly := by
  unfold Obligations.DecodeChecksCapacityOnly
  rintro s u hn ⟨hc, hop⟩ hs
  rw [step_startChecks hn hc, startChecks_decode hop]
  refine ⟨fun hfull => ?_, fun hroom => ?_⟩
  · rw [if_pos hfull]
    exact ⟨_, rfl, raise_failsWith hs (by decide) 0⟩
  · rw [if_neg (Nat.not_lt.2 hroom)]
    rfl

/-! ### The completion (R116, R117) -/

/-- The loop of the running command is over: no row or no group is left to a PACK, no input to the others (R116;
log 25). -/
def State.loopOver (s : State) : Prop :=
  match s.work.opl with
  | .pack => s.work.h.toNat ≤ s.work.y ∨ s.work.w.toNat / 8 = 0
  | .encode => s.work.n.toNat ≤ s.work.pc
  | .decode => s.work.n.toNat ≤ s.work.pc

theorem window_eq_nil {s : State} (h : s.work.n.toNat ≤ s.work.pc) (k : Nat) : s.window k = [] :=
  List.eq_nil_of_length_eq_zero (by rw [window_length, Nat.sub_eq_zero_of_le h, Nat.min_zero])

/-- The step of a command whose loop is over completes it. -/
theorem step_loopOver {s u : State} (hn : s.blockNext u) (hc : u.work.checked = true) (hover : u.loopOver) :
    step s = .next (u.complete .ok 0) := by
  rw [step_block hn, State.blockMove, if_neg (by simp [hc])]
  unfold State.loopOver at hover
  cases hop : u.work.opl <;> simp only [hop] at hover ⊢
  case pack => rw [State.packMove, if_pos hover]; rfl
  case encode => rw [State.encodeMove, window_eq_nil hover]; rfl
  case decode => rw [State.decodeMove, State.fetchToken, window_eq_nil hover]; rfl

/-- Settles O16: each of the three loops is over, so the step is the completion. -/
theorem finishedCommandCompletes : Obligations.FinishedCommandCompletes := by
  unfold Obligations.FinishedCommandCompletes
  intro s u hn hs hroom hfinished
  have hstep : step s = .next (u.complete .ok 0) := by
    rcases hfinished with ⟨⟨hc, hop⟩, hend⟩ | ⟨⟨hc, hop⟩ | ⟨hc, hop⟩, hend⟩ <;>
      refine step_loopOver hn hc ?_ <;> simp only [State.loopOver, hop]
    · exact hend.imp_left (Nat.le_of_eq ·.symm)
    · exact Nat.le_of_eq hend.symm
    · exact Nat.le_of_eq hend.symm
  have hdone := complete_succeedsWith hs hroom 0
  have ⟨_, hstatus, _⟩ := hdone
  exact ⟨_, hstep, hdone, hstatus.trans (by decide)⟩

/-! ### The accesses of an idle block (R109 to R111) -/

/-- Idle, a byte read in range puts its answer on record and changes nothing else. -/
theorem step_rdb_idle {s u : State} {b : Buf} {o : Nat} (hi : s.work.phase = .idle) (hn : s.hostNext (.rdb b o) u)
    (ho : o < s.cap b) : step s = .next (u.observe (.byte b o ((u.buf b).read o))) := by
  have hu : u.work.phase = .idle := (hostNext_phase hn).trans hi
  rw [← hostNext_cap hn] at ho
  simp only [step_host hn, State.hostMove, State.rdbMove, if_pos ho, Move.outcome, State.readByteObserved,
    readByte_idle hu]

/-- Settles O30: the nine registers by `step_rd_idle`, a byte by `step_rdb_idle`. -/
theorem idleReadsAnswerWithoutSideEffect : Obligations.IdleReadsAnswerWithoutSideEffect := by
  unfold Obligations.IdleReadsAnswerWithoutSideEffect
  refine fun s u hi => ⟨fun p hp hn => ?_, fun b o ho hn => step_rdb_idle hi hn ho⟩
  have hu : u.work.phase = .idle := (hostNext_phase hn).trans hi
  have hreg : u.reg = s.reg := by rw [hostNext_frame hn]
  simp only [List.mem_cons, List.not_mem_nil, or_false] at hp
  rcases hp with rfl | rfl | rfl | rfl | rfl | rfl | rfl | rfl | rfl <;>
    rw [step_rd_idle hi hn rfl] <;> simp [State.observe, State.readReg, State.status, hu, hreg]

/-- Settles O32: the step is `State.store`. -/
theorem bufferWriteChangesOneByte : Obligations.BufferWriteChangesOneByte := by
  unfold Obligations.BufferWriteChangesOneByte
  intro s u b o v hi ho hn
  have hbuf (c : Buf) : u.buf c = s.buf c := by rw [hostNext_frame hn]; cases c <;> rfl
  refine ⟨_, step_wrb_idle hi hn ho, ?_, fun c a hother => ?_, by cases b <;> rfl, ?_⟩
  · rw [State.store_buf_same, Memory.read_write_same]
  · rw [← hbuf]
    by_cases hc : c = b
    · subst hc
      rw [State.store_buf_same, Memory.read_write_other _ _ (hother.resolve_left (not_not.2 rfl))]
    · rw [State.store_buf_other _ _ _ hc]
  · exact store_buffersOk v ((hostNext_cap hn b).symm ▸ ho)

end Sys2Proof.Machine
end

section
/-!
PROOFS. A command that runs with the host silent: how its run ends, and what each iteration leaves to come.
-/
namespace Sys2Proof.Machine

/-! ### How a run ends -/

/-- The completion tuple of a result of one of the three functions (R119). -/
def Completion.ofResult : Except CodecError (List Byte) → Completion
  | .ok out => .success out
  | .error (code, off) => .failure code off

/-- `t` is idle with the completion tuple of `r`, and IN, FAULT, the pixel source and the parameter registers are as
in `s`. -/
structure State.endsIn (s t : State) (r : Except CodecError (List Byte)) : Prop where
  idle : t.work.phase = .idle
  inBuf : t.inBuf = s.inBuf
  faults : t.faults = s.faults
  source : t.source = s.source
  reg : t.reg = { s.reg with result := t.reg.result, outLen := t.reg.outLen, errOffset := t.reg.errOffset }
  result : t.reg.result ≠ .none
  completion : t.completion = Completion.ofResult r

theorem endsIn_of_sameButResult {s t : State} {r : Except CodecError (List Byte)} (h : s.sameButResult t)
    (hc : t.completion = Completion.ofResult r) (hr : (Completion.ofResult r).result ≠ .none) : s.endsIn t r := by
  obtain ⟨-, hin, -, hfaults, hsource, -, -, -, hreg, hwork⟩ := h
  exact ⟨by rw [hwork], hin, hfaults, hsource, hreg, by rw [← hc] at hr; exact hr, hc⟩

/-- A completion with OK ends the run in the output. -/
theorem complete_endsIn {s : State} (hs : s.spoiled = false) (hroom : s.work.acc.length ≤ s.cfg.outCap.val) :
    s.endsIn (s.complete .ok 0) (.ok s.work.acc) := by
  obtain ⟨hc, -, -, -, hframe⟩ := complete_succeedsWith hs hroom 0
  exact endsIn_of_sameButResult hframe hc nofun

/-- A raised error ends the run in that error. -/
theorem raise_endsIn {s : State} {code : ResultCode} (hs : s.spoiled = false) (hok : code ≠ .ok)
    (hnone : code ≠ .none) (off : Nat) : s.endsIn (s.raise code off) (.error (code, off)) := by
  obtain ⟨hc, -, -, -, hframe⟩ := raise_failsWith hs hok off
  exact endsIn_of_sameButResult hframe hc hnone

/-- After exactly `k` steps the run has ended in `r`. -/
def State.completesAfter (k : Nat) (s : State) (r : Except CodecError (List Byte)) : Prop :=
  ∃ t, reaches k s t ∧ s.endsIn t r

/-- After at most `n` steps the run has ended in `r`. -/
def State.completesIn (n : Nat) (s : State) (r : Except CodecError (List Byte)) : Prop :=
  ∃ k ≤ n, s.completesAfter k r

theorem completesAfter_one {s t : State} {r : Except CodecError (List Byte)} (h : step s = .next t)
    (ht : s.endsIn t r) : s.completesAfter 1 r :=
  ⟨t, ⟨t, h, rfl⟩, ht⟩

/-- A step that changes only the working state leaves the end of the run. -/
theorem completesAfter_succ {s t : State} {k : Nat} {r : Except CodecError (List Byte)} (h : step s = .next t)
    (hw : s.onlyWork t) (ht : t.completesAfter k r) : s.completesAfter (k + 1) r := by
  obtain ⟨u, hrun, hend⟩ := ht
  obtain ⟨hidle, hin, hfaults, hsource, hreg, hresult, hc⟩ := hend
  rw [hw] at hin hfaults hsource hreg
  exact ⟨u, ⟨t, h, hrun⟩, hidle, hin, hfaults, hsource, hreg, hresult, hc⟩

theorem completesIn_mono {s : State} {n n' : Nat} {r : Except CodecError (List Byte)} (hn : n ≤ n')
    (h : s.completesIn n r) : s.completesIn n' r := by
  obtain ⟨k, hk, hrun⟩ := h
  exact ⟨k, hk.trans hn, hrun⟩

/-! ### The loop of a command, the host silent -/

/-- A command of operation `op` is past its start checks, no hazard has spoiled it, its output so far fits OUT, and
the host has no move to make. -/
structure State.looping (op : Op) (s : State) : Prop where
  busy : s.work.phase = .busy
  silent : s.events = []
  iterating : s.iterating op
  unspoiled : s.spoiled = false
  room : s.work.acc.length ≤ s.cfg.outCap.val

/-- A BUSY block moves next when the host is silent. -/
theorem blockNext_of_silent {s : State} (hb : s.work.phase = .busy) (he : s.events = []) : s.blockNext s :=
  ⟨hb, .inl ⟨.inl he, rfl⟩⟩

theorem State.looping.blockNext {op : Op} {s : State} (h : s.looping op) : s.blockNext s :=
  blockNext_of_silent h.busy h.silent

/-- A loop that is over ends in the output. -/
theorem State.looping.finish {op : Op} {s : State} (h : s.looping op) (hover : s.loopOver) :
    s.completesAfter 1 (.ok s.work.acc) :=
  completesAfter_one (step_loopOver h.blockNext h.iterating.1 hover) (complete_endsIn h.unspoiled h.room)

/-- What `State.emit` leaves when the output fits. -/
def State.appended (out : List Byte) (k : Nat) (s : State) : State :=
  { s with work := { s.work with acc := s.work.acc ++ out, pc := s.work.pc + k } }

theorem State.looping.appended {op : Op} {s : State} {out : List Byte} (h : s.looping op)
    (hroom : s.work.acc.length + out.length ≤ s.cfg.outCap.val) (k : Nat) : (s.appended out k).looping op :=
  ⟨h.busy, h.silent, h.iterating, h.unspoiled, by rwa [State.appended, List.length_append]⟩

/-- What an ENCODE or DECODE ends in when its input to come stands for `good` and then, if `stop` names one, an
error: CapacityExceeded if `good` does not fit behind ACC (R88, R104). -/
def State.ending (s : State) (good : List Byte) (stop : Option CodecError) : Except CodecError (List Byte) :=
  if s.cfg.outCap.val < s.work.acc.length + good.length then .error (.capacityExceeded, 0)
  else stop.elim (.ok (s.work.acc ++ good)) .error

theorem ending_nil {s : State} (h : s.work.acc.length ≤ s.cfg.outCap.val) (stop : Option CodecError) :
    s.ending [] stop = stop.elim (.ok s.work.acc) .error := by
  rw [State.ending, List.length_nil, Nat.add_zero, if_neg (Nat.not_lt.2 h), List.append_nil]

/-- Output that fits may be counted as emitted or as still to come. -/
theorem ending_appended (s : State) (out good : List Byte) (k : Nat) (stop : Option CodecError) :
    (s.appended out k).ending good stop = s.ending (out ++ good) stop := by
  simp only [State.ending, State.appended, List.length_append, List.append_assoc, Nat.add_assoc]

theorem ending_full {s : State} {out : List Byte} (h : s.cfg.outCap.val < s.work.acc.length + out.length)
    (good : List Byte) (stop : Option CodecError) :
    s.ending (out ++ good) stop = .error (.capacityExceeded, 0) := by
  rw [State.ending, if_pos (by rw [List.length_append]; omega)]

/-- An iteration that emits output goes on with the loop, or ends the run if the output does not fit. -/
theorem State.looping.emit {op : Op} {s : State} {out good : List Byte} {k n : Nat} {stop : Option CodecError}
    (h : s.looping op) (hstep : step s = .next (s.emit out k))
    (hnext : (s.appended out k).looping op →
      (s.appended out k).completesIn n ((s.appended out k).ending good stop)) :
    s.completesIn (n + 1) (s.ending (out ++ good) stop) := by
  rcases Nat.lt_or_ge s.cfg.outCap.val (s.work.acc.length + out.length) with hfull | hroom
  · rw [emit_full hfull] at hstep
    rw [ending_full hfull]
    exact ⟨1, by omega, completesAfter_one hstep (raise_endsIn h.unspoiled (by decide) (by decide) 0)⟩
  · rw [emit_room hroom] at hstep
    obtain ⟨j, hj, hrun⟩ := hnext (h.appended hroom k)
    rw [ending_appended] at hrun
    exact ⟨j + 1, Nat.succ_le_succ hj, completesAfter_succ hstep rfl hrun⟩

/-! ### The input still to come -/

/-- The input from the cursor on. -/
def State.remaining (s : State) : List Byte := s.inBuf.bytes s.work.pc (s.work.n.toNat - s.work.pc)

theorem remaining_length (s : State) : s.remaining.length = s.work.n.toNat - s.work.pc :=
  Memory.bytes_length _ _ _

theorem window_eq_take (k : Nat) (s : State) : s.window k = s.remaining.take k := by
  rw [State.window, State.remaining, Memory.bytes, Memory.bytes, ← List.map_take, List.take_range]

/-- The cursor moves over the input. -/
theorem remaining_appended (s : State) (out : List Byte) (k : Nat) :
    (s.appended out k).remaining = s.remaining.drop k := by
  show s.inBuf.bytes (s.work.pc + k) (s.work.n.toNat - (s.work.pc + k)) = s.remaining.drop k
  rcases Nat.lt_or_ge (s.work.n.toNat - s.work.pc) k with hpast | hin
  · rw [List.drop_of_length_le (by rw [remaining_length]; omega),
      show s.work.n.toNat - (s.work.pc + k) = 0 by omega]
    rfl
  · obtain ⟨j, hj⟩ := Nat.exists_eq_add_of_le hin
    rw [State.remaining, hj, Memory.bytes_add, List.drop_left' (Memory.bytes_length _ _ _),
      show s.work.n.toNat - (s.work.pc + k) = j by omega]

/-- The loop of an ENCODE or DECODE with no input to come is over. -/
theorem loopOver_of_remaining_nil {op : Op} {s : State} (h : s.looping op) (hop : op ≠ .pack)
    (hnil : s.remaining = []) : s.loopOver := by
  have hend : s.work.n.toNat ≤ s.work.pc := by
    have hlen := remaining_length s
    rw [hnil, List.length_nil] at hlen
    omega
  obtain ⟨-, hopl⟩ := h.iterating
  cases op with
  | pack => exact absurd rfl hop
  | encode | decode => simpa only [State.loopOver, hopl] using hend

/-! ### From the start to the loop (R112, R113 to R115) -/

/-- The start checks pass exactly the parameters that are admitted, and complete the others with an error. -/
theorem startChecks_admitted_or_raise (s : State) :
    (s.work.admitted s.cfg.inCap.val s.cfg.outCap.val ∧ s.startChecks = s.pass) ∨
    (¬ s.work.admitted s.cfg.inCap.val s.cfg.outCap.val ∧
      ∃ code : ResultCode, code ≠ .ok ∧ code ≠ .none ∧ s.startChecks = s.raise code 0) := by
  unfold Working.admitted
  cases hop : s.work.opl <;> simp only
  case pack =>
    rw [startChecks_pack hop]
    split_ifs with hw ho
    · exact .inr ⟨fun h => hw h.1, _, by decide, by decide, rfl⟩
    · exact .inr ⟨fun h => Nat.not_lt.2 h.2 ho, _, by decide, by decide, rfl⟩
    · exact .inl ⟨⟨not_not.1 hw, Nat.not_lt.1 ho⟩, rfl⟩
  case encode =>
    rw [startChecks_encode hop]
    split_ifs with hm hn
    · exact .inr ⟨fun h => Nat.not_lt.2 h.1 hm, _, by decide, by decide, rfl⟩
    · exact .inr ⟨fun h => Nat.not_lt.2 h.2 hn, _, by decide, by decide, rfl⟩
    · exact .inl ⟨⟨Nat.not_lt.1 hm, Nat.not_lt.1 hn⟩, rfl⟩
  case decode =>
    rw [startChecks_decode hop]
    split_ifs with hn
    · exact .inr ⟨Nat.not_le.2 hn, _, by decide, by decide, rfl⟩
    · exact .inl ⟨Nat.not_lt.1 hn, rfl⟩

theorem startChecks_of_admitted {s : State} (h : s.work.admitted s.cfg.inCap.val s.cfg.outCap.val) :
    s.startChecks = s.pass := by
  rcases startChecks_admitted_or_raise s with ⟨_, hpass⟩ | ⟨hno, _⟩
  · exact hpass
  · exact absurd h hno

theorem justStarted_blockNext (op : Op) (s : State) : (s.justStarted op).blockNext (s.justStarted op) :=
  blockNext_of_silent rfl rfl

theorem justStarted_pass_looping (op : Op) (s : State) : (s.justStarted op).pass.looping op :=
  ⟨rfl, rfl, ⟨rfl, rfl⟩, rfl, Nat.zero_le _⟩

/-- A command whose checks pass takes one step more than its loop. -/
theorem justStarted_completesAfter {op : Op} {s : State} {k : Nat} {r : Except CodecError (List Byte)}
    (ha : (s.justStarted op).work.admitted s.cfg.inCap.val s.cfg.outCap.val)
    (hloop : (s.justStarted op).pass.completesAfter k r) : (s.justStarted op).completesAfter (k + 1) r := by
  have hstep := step_startChecks (justStarted_blockNext op s) rfl
  rw [startChecks_of_admitted ha] at hstep
  exact completesAfter_succ hstep rfl hloop

theorem justStarted_completesIn {op : Op} {s : State} {n : Nat} {r : Except CodecError (List Byte)}
    (ha : (s.justStarted op).work.admitted s.cfg.inCap.val s.cfg.outCap.val)
    (hloop : (s.justStarted op).pass.completesIn n r) : (s.justStarted op).completesIn (n + 1) r := by
  obtain ⟨k, hk, hrun⟩ := hloop
  exact ⟨k + 1, Nat.succ_le_succ hk, justStarted_completesAfter ha hrun⟩

end Sys2Proof.Machine
end

section
/-!
PROOFS. The machine computes the three functions, and every command ends (O53, O54, O55, O57).
-/
namespace Sys2Proof.Machine

/-! ### PACK (R72) -/

/-- The instruction of a group appends the byte of R69. -/
theorem exec_group (src : PixelSource) (y g : Nat) (s : State) :
    exec (src.group y g) s = .next (s.emitPacked (Codec.packedByte src y g)) := by
  rw [← Code.packed.inj (encode_group src y g)]
  rfl

/-- As long as a byte of the output is missing, the PACK cursor is at a group of the image. -/
theorem packOk_cursor_inside {k : Working} {cap : Nat} (h : k.packOk cap)
    (hlt : k.acc.length < k.h.toNat * (k.w.toNat / 8)) : k.y < k.h.toNat ∧ 0 < k.w.toNat / 8 := by
  obtain ⟨-, -, hacc, hy, -, hlast⟩ := h
  refine ⟨lt_of_le_of_ne hy fun hend => ?_, Nat.pos_of_ne_zero fun hw => ?_⟩
  · rw [hacc, hend, hlast hend] at hlt
    exact Nat.lt_irrefl _ hlt
  · rw [hw, Nat.mul_zero] at hlt
    exact Nat.not_lt_zero _ hlt

/-- With the whole output there, the PACK cursor is past the image. -/
theorem packOk_cursor_past {k : Working} {cap : Nat} (h : k.packOk cap)
    (heq : k.acc.length = k.h.toNat * (k.w.toNat / 8)) : k.h.toNat ≤ k.y ∨ k.w.toNat / 8 = 0 := by
  obtain ⟨-, -, hacc, -, hg, -⟩ := h
  by_contra hleft
  obtain ⟨hrow, hw⟩ := not_or.1 hleft
  have hin : (k.y + 1) * (k.w.toNat / 8) ≤ k.h.toNat * (k.w.toNat / 8) :=
    Nat.mul_le_mul_right _ (Nat.lt_of_not_le hrow)
  rw [← heq, hacc, Nat.succ_mul] at hin
  omega

/-- A PACK that has put out a beginning of the image and has `d` bytes to go ends in the image, a step for each of
them and one for the completion. -/
theorem pack_loop {s : State} {out : List Byte} {d : Nat} (h : s.looping .pack)
    (hok : s.work.packOk s.cfg.outCap.val)
    (hout : Codec.pack s.work.w.toNat s.work.h.toNat s.work.px = .ok out) (hacc : s.work.acc <+: out)
    (hd : s.work.acc.length + d = s.work.h.toNat * (s.work.w.toNat / 8)) :
    s.completesAfter (d + 1) (.ok out) := by
  induction d generalizing s with
  | zero =>
    rw [← hacc.eq_of_length (hd.trans (packedLengthIsExact _ _ _ _ hout).symm)]
    refine h.finish ?_
    simpa only [State.loopOver, h.iterating.2] using packOk_cursor_past hok hd
  | succ d ih =>
    obtain ⟨hy, hw⟩ := packOk_cursor_inside hok (by omega)
    have hstep := step_pack_group h.blockNext h.iterating hy hw
    have hok' := nextGroup_packOk (Codec.packedByte s.work.px s.work.y s.work.g) hok hy (Nat.ne_of_gt hw)
    rw [exec_group, emitPacked_frame] at hstep
    rw [nextGroup_frame] at hok'
    obtain ⟨-, hcap, hcursor, -, hg, -⟩ := hok
    obtain ⟨hlt, hbyte⟩ : ∃ hlt, out[s.work.acc.length]'hlt = Codec.packedByte s.work.px s.work.y s.work.g :=
      List.getElem?_eq_some_iff.1 (hcursor ▸ pack_getElem? hout hy (by omega))
    have hacc' : s.work.acc ++ [Codec.packedByte s.work.px s.work.y s.work.g] <+: out :=
      hbyte ▸ List.concat_get_prefix hacc hlt
    have hlen : (s.work.acc ++ [Codec.packedByte s.work.px s.work.y s.work.g]).length = s.work.acc.length + 1 :=
      List.length_append
    refine completesAfter_succ hstep rfl (ih ?_ hok' hout hacc' ?_)
    · exact ⟨h.busy, h.silent, h.iterating, h.unspoiled, by simp only [hlen]; omega⟩
    · simp only [hlen]
      omega

/-- A PACK whose checks pass ends in the packed image. -/
theorem pack_command {s : State} (hw : s.reg.width.toNat % 8 = 0)
    (hcap : s.reg.height.toNat * (s.reg.width.toNat / 8) ≤ s.cfg.outCap.val) :
    ∃ out, Codec.pack s.reg.width.toNat s.reg.height.toNat s.source = .ok out ∧
      (s.justStarted .pack).completesAfter (s.reg.height.toNat * (s.reg.width.toNat / 8) + 2) (.ok out) := by
  obtain ⟨out, hout⟩ : ∃ out, Codec.pack s.reg.width.toNat s.reg.height.toNat s.source = .ok out :=
    ⟨_, if_neg (not_not.2 hw)⟩
  have hok : (s.justStarted .pack).pass.work.packOk s.cfg.outCap.val := by
    refine ⟨hw, hcap, (Nat.zero_mul _).symm, Nat.zero_le _, ?_, fun _ => rfl⟩
    rcases Nat.eq_zero_or_pos (s.reg.width.toNat / 8) with hzero | hpos
    · exact .inr ⟨rfl, hzero⟩
    · exact .inl hpos
  exact ⟨out, hout, justStarted_completesAfter (And.intro hw hcap)
    (pack_loop (justStarted_pass_looping .pack s) hok hout List.nil_prefix (Nat.zero_add _))⟩

/-- Settles O53: the run of `pack_command`, its registers read off the completion tuple. -/
theorem packCommandComputesPack : Obligations.PackCommandComputesPack := by
  unfold Obligations.PackCommandComputesPack
  intro s hw hcap
  obtain ⟨out, hout, t, hrun, hend⟩ := pack_command hw hcap
  have hresult : t.reg.result = .ok := congrArg Completion.result hend.completion
  have hoffset : t.reg.errOffset = 0 := congrArg Completion.errOffset hend.completion
  have hreg := hend.reg
  rw [hresult, hoffset] at hreg
  exact ⟨out, t, hout, hrun, hend.idle, hend.completion, hend.inBuf, hend.faults, hend.source, hreg⟩

/-! ### A stream command whose input has no error -/

/-- The run that ends in the output of a whole input, as O54 and O55 say it. -/
theorem stream_command_result {op : Op} {s : State} {out : List Byte} {n : Nat}
    (h : (s.justStarted op).completesIn n ((s.justStarted op).pass.ending out none)) :
    ∃ k t, k ≤ n ∧ reaches k (s.justStarted op) t ∧ t.work.phase = .idle ∧ t.inBuf = s.inBuf ∧
      t.faults = s.faults ∧ (out.length ≤ s.cfg.outCap.val → t.completion = Completion.success out) ∧
      (s.cfg.outCap.val < out.length → t.completion = Completion.failure .capacityExceeded 0) := by
  obtain ⟨k, hk, t, hrun, hend⟩ := h
  have hending : (s.justStarted op).pass.ending out none =
      if s.cfg.outCap.val < out.length then .error (.capacityExceeded, 0) else .ok out := by
    rw [← Nat.zero_add out.length]
    rfl
  have hc := hend.completion
  rw [hending] at hc
  refine ⟨k, t, hk, hrun, hend.idle, hend.inBuf, hend.faults, fun hfits => ?_, fun hfull => ?_⟩
  · rwa [if_neg (Nat.not_lt.2 hfits)] at hc
  · rwa [if_pos hfull] at hc

theorem input_length (s : State) : s.input.length = s.reg.inLen.toNat := Memory.bytes_length _ _ _

/-! ### ENCODE (R89) -/

/-- The 256 bytes an iteration reads measure the run (R89). -/
theorem cappedRun_take (bs : List Byte) : cappedRun (bs.take 256) = cappedRun bs := by
  cases bs with
  | nil => rfl
  | cons v rest =>
    simp only [List.take_succ_cons, cappedRun, ← List.take_takeWhile, List.length_take]
    omega

theorem tokenAdvance_pos (m : Word) (v : Byte) (rest : List Byte) :
    1 ≤ tokenAdvance m (cappedRun (v :: rest)) := by
  unfold tokenAdvance
  split
  · exact cappedRun_cons_pos v rest
  · exact Nat.le_refl 1

theorem encodeLoop_cons (e : Byte) (m : Word) (k : Nat) (v : Byte) (rest : List Byte) :
    Codec.encodeLoop e m (k + 1) (v :: rest) =
      (chooseToken e m v (cappedRun (v :: rest))).bytes ++
        Codec.encodeLoop e m k ((v :: rest).drop (tokenAdvance m (cappedRun (v :: rest)))) := rfl

/-- An ENCODE with no input to come ends in what it has put out. -/
theorem encode_noInput {s : State} (h : s.looping .encode) (hnil : s.remaining = []) (k : Nat) :
    s.completesIn (k + 1) (s.ending (Codec.encodeLoop s.work.e s.work.m k s.remaining) none) := by
  rw [hnil, encodeLoop_nil, ending_nil h.room]
  exact ⟨1, Nat.succ_le_succ (Nat.zero_le k), h.finish (loopOver_of_remaining_nil h (by decide) hnil)⟩

/-- An ENCODE ends in what it has put out and the encoding of its input to come, by induction on the bound of R75's
loop. -/
theorem encode_loop {s : State} {k : Nat} (h : s.looping .encode) (hk : s.remaining.length ≤ k) :
    s.completesIn (k + 1) (s.ending (Codec.encodeLoop s.work.e s.work.m k s.remaining) none) := by
  induction k generalizing s with
  | zero => exact encode_noInput h (List.eq_nil_of_length_eq_zero (Nat.le_zero.1 hk)) 0
  | succ k ih =>
    cases hrem : s.remaining with
    | nil => exact hrem ▸ encode_noInput h hrem (k + 1)
    | cons v rest =>
      have hwin : s.window 256 = (v :: rest).take 256 := hrem ▸ window_eq_take 256 s
      have hstep := step_encode_token h.blockNext h.iterating (hwin.trans List.take_succ_cons)
      rw [hwin, cappedRun_take] at hstep
      rw [encodeLoop_cons]
      refine h.emit hstep fun h' => ?_
      have hpos := tokenAdvance_pos s.work.m v rest
      have hnext := ih h' (by rw [remaining_appended, List.length_drop]; omega)
      rwa [remaining_appended, hrem] at hnext

/-- An ENCODE whose checks pass ends in the encoding of its input. -/
theorem encode_command {s : State} (hm : 2 ≤ s.reg.minRun.toNat) (hin : s.reg.inLen.toNat ≤ s.cfg.inCap.val) :
    (s.justStarted .encode).completesIn (s.reg.inLen.toNat + 2) ((s.justStarted .encode).pass.ending
      (Codec.encodeLoop s.reg.escape s.reg.minRun s.reg.inLen.toNat s.input) none) :=
  justStarted_completesIn (And.intro hm hin)
    (encode_loop (justStarted_pass_looping .encode s) (Nat.le_of_eq (input_length s)))

/-- Settles O54: what Encode answers is the loop on the whole input. -/
theorem encodeCommandComputesEncode : Obligations.EncodeCommandComputesEncode := by
  unfold Obligations.EncodeCommandComputesEncode
  intro s out hin hencode
  obtain ⟨hm, rfl⟩ := encode_ok hencode
  rw [input_length]
  exact stream_command_result (encode_command hm hin)

/-! ### DECODE (R105) -/

/-- No token stands at the front of `tail`: it is the end of the stream, or an illegal pattern. -/
def NoToken (e : Byte) (tail : List Byte) : Prop :=
  tail = [] ∨ ∃ i rest, decodeToken e tail = .ok (i, rest) ∧ i.isToken = false

/-- The token decoder looks at no more than three bytes (R102). -/
theorem decodeToken_take {e : Byte} {bs : List Byte} {i : Instr} {rest : List Byte}
    (h : decodeToken e bs = .ok (i, rest)) : ∃ rest', decodeToken e (bs.take 3) = .ok (i, rest') := by
  rcases decodeToken_cases h with ⟨b, hb, rfl, rfl⟩ | ⟨rfl, rfl, rfl⟩ | ⟨rfl, rfl⟩ |
    ⟨c, hc, rfl, rfl, rfl⟩ | ⟨rfl, rfl⟩ | ⟨v, hv, rfl, rfl⟩ | ⟨c, v, hc0, hc1, rfl, rfl⟩
  · exact ⟨_, decodeToken_lit hb _⟩
  · exact ⟨_, decodeToken_truncCount e⟩
  · exact ⟨_, decodeToken_illegalCount0 e _⟩
  · exact ⟨_, decodeToken_truncValue e hc⟩
  · exact ⟨_, decodeToken_esc e _⟩
  · exact ⟨_, decodeToken_illegalEscValue hv _⟩
  · exact ⟨_, decodeToken_run e hc0 hc1 v _⟩

/-- The block's step of a DECODE runs the first token or pattern of the input to come. -/
theorem step_decode_remaining {s : State} {i : Instr} {rest : List Byte} (h : s.looping .decode)
    (hd : decodeToken s.work.e s.remaining = .ok (i, rest)) : step s = exec i s := by
  obtain ⟨rest', hd'⟩ := decodeToken_take hd
  rw [← window_eq_take] at hd'
  exact step_decode_token h.blockNext h.iterating hd'

/-- An illegal pattern is the same error of the function and of the machine, at the same offset. -/
theorem illegal_pattern {e : Byte} {bs rest : List Byte} {i : Instr} (hd : decodeToken e bs = .ok (i, rest))
    (hi : i.isToken = false) :
    ∃ (code : ResultCode) (k : Nat), code ≠ .ok ∧ code ≠ .none ∧
      (∀ pc, Codec.decodeFrom e pc bs = .error (code, pc + k)) ∧
      ∀ s, exec i s = .next (s.raise code (s.work.pc + k)) := by
  rcases decodeToken_cases hd with ⟨b, hb, rfl, rfl⟩ | ⟨rfl, rfl, rfl⟩ | ⟨rfl, rfl⟩ |
    ⟨c, hc, rfl, rfl, rfl⟩ | ⟨rfl, rfl⟩ | ⟨v, hv, rfl, rfl⟩ | ⟨c, v, hc0, hc1, rfl, rfl⟩
  · cases hi
  · exact ⟨_, 1, by decide, by decide, decodeFrom_truncCount e, exec_truncCount e⟩
  · exact ⟨_, 1, by decide, by decide, fun pc => decodeFrom_illegalCount0 e pc rest, exec_illegalCount0 e⟩
  · exact ⟨_, 2, by decide, by decide, decodeFrom_truncValue e hc, exec_truncValue e c⟩
  · cases hi
  · exact ⟨_, 2, by decide, by decide, fun pc => decodeFrom_illegalEscValue hv pc rest, exec_illegalEscValue e v⟩
  · cases hi

/-- A DECODE with no token to come ends in what it has put out, or in the error of the illegal pattern. -/
theorem decode_noToken {s : State} {stop : Option CodecError} (h : s.looping .decode)
    (htail : NoToken s.work.e s.remaining)
    (hstop : Codec.decodeFrom s.work.e s.work.pc s.remaining = stop.elim (.ok []) .error) :
    s.completesAfter 1 (s.ending [] stop) := by
  rw [ending_nil h.room]
  rcases htail with hnil | ⟨i, rest, hd, hi⟩
  · rw [hnil] at hstop
    cases stop with
    | none => exact h.finish (loopOver_of_remaining_nil h (by decide) hnil)
    | some err => cases hstop
  · obtain ⟨code, k, hok, hnone, hcodec, hexec⟩ := illegal_pattern hd hi
    rw [hcodec] at hstop
    cases stop with
    | none => cases hstop
    | some err =>
      cases hstop
      exact completesAfter_one ((step_decode_remaining h hd).trans (hexec s))
        (raise_endsIn h.unspoiled hok hnone _)

/-- A DECODE iteration that runs a token moves its bytes from the input to come and its output to ACC. -/
theorem State.looping.emitToken {s : State} {token tokens tail rest out good : List Byte} {i : Instr} {p : Nat}
    {stop : Option CodecError} (h : s.looping .decode) (hrem : s.remaining = token ++ tokens ++ tail)
    (hp : s.work.pc + (token ++ tokens).length = p) (hpos : 0 < token.length)
    (hd : decodeToken s.work.e s.remaining = .ok (i, rest))
    (hexec : exec i s = .next (s.emit out token.length))
    (hnext : ∀ t : State, t.looping .decode → t.work.e = s.work.e → t.remaining = tokens ++ tail →
      t.work.pc + tokens.length = p → t.completesIn (tokens.length + 1) (t.ending good stop)) :
    s.completesIn ((token ++ tokens).length + 1) (s.ending (out ++ good) stop) := by
  rw [List.length_append] at hp ⊢
  have hstep := (step_decode_remaining h hd).trans hexec
  refine completesIn_mono (by omega) (h.emit hstep fun h' => hnext _ h' rfl ?_ ((Nat.add_assoc _ _ _).trans hp))
  rw [remaining_appended, hrem, List.append_assoc, List.drop_left]

/-- A DECODE ends in what it has put out and what its tokens to come stand for, and then in what the function answers
for the tail after them; by induction on the tokens. -/
theorem decode_loop {e : Byte} {good tokens tail : List Byte} {stop : Option CodecError} {p : Nat} {s : State}
    (htokens : EncodesTo e 2 good tokens) (h : s.looping .decode) (he : s.work.e = e)
    (hrem : s.remaining = tokens ++ tail) (hp : s.work.pc + tokens.length = p) (htail : NoToken e tail)
    (hstop : Codec.decodeFrom e p tail = stop.elim (.ok []) .error) :
    s.completesIn (tokens.length + 1) (s.ending good stop) := by
  induction htokens generalizing s with
  | nil =>
    subst he hp
    rw [List.nil_append] at hrem
    rw [← hrem] at htail hstop
    exact ⟨1, Nat.le_refl 1, decode_noToken h htail hstop⟩
  | run n v data out long fits _ ih =>
    have hcount := toNat_count fits
    have hn : 2 ≤ (BitVec.ofNat 8 n).toNat := hcount.symm ▸ long
    obtain ⟨h0, h1⟩ := (two_le_count_iff _).1 hn
    have hexec := exec_run e (BitVec.ofNat 8 n) v s
    rw [hcount] at hexec
    exact h.emitToken (token := [e, BitVec.ofNat 8 n, v]) hrem hp (Nat.succ_pos _)
      (by rw [hrem, he]; exact decodeToken_run e h0 h1 v _) hexec fun t h' he' => ih h' (he'.trans he)
  | esc data out _ ih =>
    exact h.emitToken (token := [e, 1, e]) hrem hp (Nat.succ_pos _)
      (by rw [hrem, he]; exact decodeToken_esc e _) (exec_esc e s) fun t h' he' => ih h' (he'.trans he)
  | lit v data out other _ ih =>
    exact h.emitToken (token := [v]) hrem hp (Nat.succ_pos _)
      (by rw [hrem, he]; exact decodeToken_lit other _) (exec_lit v s) fun t h' he' => ih h' (he'.trans he)

/-- A DECODE whose check passes ends in what the tokens of its input stand for and what comes after them. -/
theorem decode_command {s : State} {good tokens tail : List Byte} {stop : Option CodecError}
    (hin : s.reg.inLen.toNat ≤ s.cfg.inCap.val) (htokens : EncodesTo s.reg.escape 2 good tokens)
    (hinput : s.input = tokens ++ tail) (htail : NoToken s.reg.escape tail)
    (hstop : Codec.decodeFrom s.reg.escape tokens.length tail = stop.elim (.ok []) .error) :
    (s.justStarted .decode).completesIn (s.reg.inLen.toNat + 2)
      ((s.justStarted .decode).pass.ending good stop) := by
  have hlen : tokens.length ≤ s.reg.inLen.toNat := by
    rw [← input_length, hinput, List.length_append]
    exact Nat.le_add_right _ _
  refine completesIn_mono (Nat.succ_le_succ (Nat.succ_le_succ hlen)) (justStarted_completesIn hin ?_)
  exact decode_loop htokens (justStarted_pass_looping .decode s) rfl hinput (Nat.zero_add _) htail hstop

/-- Settles O55: a stream that decodes is tokens to its end. -/
theorem decodeCommandComputesDecode : Obligations.DecodeCommandComputesDecode := by
  unfold Obligations.DecodeCommandComputesDecode
  intro s out hin hdecode
  exact stream_command_result (decode_command hin (encodesTo_of_decodeFrom hdecode) (List.append_nil _).symm
    (.inl rfl) (stop := none) rfl)

/-! ### Every command ends (R118) -/

/-- A stream is tokens up to its end or its first illegal pattern. -/
theorem exists_tokens_tail (e : Byte) (bs : List Byte) :
    ∃ good tokens tail, bs = tokens ++ tail ∧ EncodesTo e 2 good tokens ∧ NoToken e tail := by
  induction hlen : bs.length using Nat.strong_induction_on generalizing bs with
  | _ len ih =>
    subst hlen
    cases bs with
    | nil => exact ⟨[], [], [], rfl, .nil, .inl rfl⟩
    | cons b bs =>
      obtain ⟨i, rest, hd⟩ := decodeToken_total e b bs
      have illegal (hi : i.isToken = false) : ∃ good tokens tail,
          b :: bs = tokens ++ tail ∧ EncodesTo e 2 good tokens ∧ NoToken e tail :=
        ⟨[], [], _, rfl, .nil, .inr ⟨i, rest, hd, hi⟩⟩
      have recur (hlt : rest.length < (b :: bs).length) := ih _ hlt rest rfl
      rcases decodeToken_cases hd with ⟨v, hv, rfl, hs⟩ | ⟨rfl, _⟩ | ⟨rfl, _⟩ | ⟨c, _, rfl, _⟩ | ⟨rfl, hs⟩ |
        ⟨v, _, rfl, _⟩ | ⟨c, v, hc0, hc1, rfl, hs⟩
      · obtain ⟨good, tokens, tail, rfl, htokens, htail⟩ := recur (by simp [hs])
        exact ⟨_, _, tail, hs, .lit v good tokens hv htokens, htail⟩
      · exact illegal rfl
      · exact illegal rfl
      · exact illegal rfl
      · obtain ⟨good, tokens, tail, rfl, htokens, htail⟩ := recur (by simp [hs]; omega)
        exact ⟨_, _, tail, hs, .esc good tokens htokens, htail⟩
      · exact illegal rfl
      · obtain ⟨good, tokens, tail, rfl, htokens, htail⟩ := recur (by simp [hs]; omega)
        have hrun := EncodesTo.run (m := 2) c.toNat v good tokens ((two_le_count_iff c).2 ⟨hc0, hc1⟩)
          (Nat.le_of_lt_succ c.isLt) htokens
        rw [BitVec.ofNat_toNat, BitVec.setWidth_eq] at hrun
        exact ⟨_, _, tail, hs, hrun, htail⟩

/-- What the function answers for a tail without a token: no more output, or the error. -/
theorem exists_stop {e : Byte} {tail : List Byte} (h : NoToken e tail) (pc : Nat) :
    ∃ stop : Option CodecError, Codec.decodeFrom e pc tail = stop.elim (.ok []) .error := by
  rcases h with rfl | ⟨i, rest, hd, hi⟩
  · exact ⟨none, rfl⟩
  · obtain ⟨code, k, -, -, hcodec, -⟩ := illegal_pattern hd hi
    exact ⟨some (code, pc + k), hcodec pc⟩

/-- A command whose checks pass ends within its bound. -/
theorem admitted_completesIn {op : Op} {s : State}
    (ha : (s.justStarted op).work.admitted s.cfg.inCap.val s.cfg.outCap.val) :
    ∃ r, (s.justStarted op).completesIn
      (if op = .pack then s.reg.height.toNat * (s.reg.width.toNat / 8) + 2 else s.reg.inLen.toNat + 2) r := by
  cases op with
  | pack =>
    have ⟨hw, hcap⟩ : s.reg.width.toNat % 8 = 0 ∧
      s.reg.height.toNat * (s.reg.width.toNat / 8) ≤ s.cfg.outCap.val := ha
    obtain ⟨out, _, hrun⟩ := pack_command hw hcap
    exact ⟨_, _, Nat.le_refl _, hrun⟩
  | encode =>
    have ⟨hm, hin⟩ : 2 ≤ s.reg.minRun.toNat ∧ s.reg.inLen.toNat ≤ s.cfg.inCap.val := ha
    exact ⟨_, encode_command hm hin⟩
  | decode =>
    obtain ⟨good, tokens, tail, hinput, htokens, htail⟩ := exists_tokens_tail s.reg.escape s.input
    obtain ⟨stop, hstop⟩ := exists_stop htail tokens.length
    exact ⟨_, decode_command ha htokens hinput htail hstop⟩

/-- Settles O57: the start checks end the command at once, or its loop ends within the bound. -/
theorem everyCommandTerminates : Obligations.EveryCommandTerminates := by
  unfold Obligations.EveryCommandTerminates
  intro s op
  have hends : ∃ r, (s.justStarted op).completesIn
      (if op = .pack then s.reg.height.toNat * (s.reg.width.toNat / 8) + 2 else s.reg.inLen.toNat + 2) r := by
    rcases startChecks_admitted_or_raise (s.justStarted op) with ⟨ha, -⟩ | ⟨-, code, hok, hnone, hraise⟩
    · exact admitted_completesIn ha
    · have hstep := step_startChecks (justStarted_blockNext op s) rfl
      rw [hraise] at hstep
      exact ⟨_, 1, by split <;> omega, completesAfter_one hstep (raise_endsIn rfl hok hnone 0)⟩
  obtain ⟨r, k, hk, t, hrun, hend⟩ := hends
  exact ⟨k, t, hk, hrun, hend.idle, hend.result⟩

end Sys2Proof.Machine
end

section
/-!
PROOFS. Errors (60_exceptions.md): the first error of a bad stream, the illegal command word, the block that waits, and
the instances that share nothing (O56, O11, O39, O44).
-/
namespace Sys2Proof.Machine

/-! ### The first error of a stream (R99, R128) -/

theorem map_append_map_append (x : Except CodecError (List Byte)) (front back : List Byte) :
    (x.map (back ++ ·)).map (front ++ ·) = x.map (front ++ back ++ ·) := by
  cases x with
  | error err => rfl
  | ok tail => exact congrArg Except.ok (List.append_assoc front back tail).symm

/-- Decoding goes over tokens to what stands after them, whatever that is. -/
theorem EncodesTo.decodeFrom_append {e : Byte} {m : Word} (hm : 2 ≤ m.toNat) {good tokens : List Byte}
    (h : EncodesTo e m good tokens) (pc : Nat) (tail : List Byte) :
    Codec.decodeFrom e pc (tokens ++ tail) =
      (Codec.decodeFrom e (pc + tokens.length) tail).map (good ++ ·) := by
  induction h generalizing pc with
  | nil =>
    rw [List.length_nil, Nat.add_zero, List.nil_append]
    cases Codec.decodeFrom e pc tail <;> rfl
  | run n v data out long fits _ ih =>
    have hcount := toNat_count fits
    simp only [List.cons_append, List.length_cons]
    rw [decodeFrom_run e pc (by omega), ih, hcount, map_append_map_append, Nat.add_assoc, Nat.add_comm 3]
  | esc data out _ ih =>
    simp only [List.cons_append, List.length_cons]
    rw [decodeFrom_esc, ih, Nat.add_assoc, Nat.add_comm 3]
    exact map_append_map_append _ [e] data
  | lit v data out other _ ih =>
    simp only [List.cons_append, List.length_cons]
    rw [decodeFrom_lit other, ih, Nat.add_assoc, Nat.add_comm 1]
    exact map_append_map_append _ [v] data

/-- A stream with an error has it after its tokens, at an illegal pattern. -/
theorem illegal_after_tokens {e : Byte} {good tokens tail : List Byte} {err : CodecError}
    (htokens : EncodesTo e 2 good tokens) (htail : NoToken e tail)
    (hbad : Codec.decode (tokens ++ tail) e = .error err) :
    Codec.decodeFrom e tokens.length tail = .error err ∧
      ∃ i rest, decodeToken e tail = .ok (i, rest) ∧ i.isToken = false := by
  rw [Codec.decode, htokens.decodeFrom_append (by decide), Nat.zero_add] at hbad
  cases hstop : Codec.decodeFrom e tokens.length tail with
  | ok more => rw [hstop] at hbad; cases hbad
  | error err' =>
    rw [hstop] at hbad
    cases hbad
    refine ⟨rfl, htail.resolve_left ?_⟩
    rintro rfl
    cases hstop

theorem justStarted_pass_ending (op : Op) (s : State) (good : List Byte) (stop : Option CodecError) :
    (s.justStarted op).pass.ending good stop =
      if s.cfg.outCap.val < good.length then .error (.capacityExceeded, 0)
      else stop.elim (.ok good) .error := by
  rw [← Nat.zero_add good.length]
  rfl

/-- Settles O56: the stream is tokens up to its first illegal pattern, where `decode_command` ends the run with the
error of the function unless the output of the tokens did not fit. -/
theorem decodeCommandReportsFirstError : Obligations.DecodeCommandReportsFirstError := by
  unfold Obligations.DecodeCommandReportsFirstError
  intro s code off hin hbad
  obtain ⟨good, tokens, tail, hinput, htokens, htail⟩ := exists_tokens_tail s.reg.escape s.input
  obtain ⟨hstop, i, rest, hd, hi⟩ := illegal_after_tokens htokens htail (hinput ▸ hbad)
  obtain ⟨k, hk, t, hrun, hend⟩ := decode_command (stop := some (code, off)) hin htokens hinput htail hstop
  have hcompletion := hend.completion
  rw [justStarted_pass_ending] at hcompletion
  have hfits (h : good.length ≤ s.cfg.outCap.val) : t.completion = Completion.failure code off := by
    rwa [if_neg (Nat.not_lt.2 h)] at hcompletion
  have hlength : good.length ≤ 85 * s.reg.inLen.toNat := by
    have hgood := htokens.data_length_le
    have htokensLength : tokens.length ≤ s.reg.inLen.toNat := by
      rw [← input_length, hinput, List.length_append]
      exact Nat.le_add_right _ _
    omega
  refine ⟨tokens.length, i, rest, good, k, t, ?_, ?_, hi, hk, hrun, hend.idle, hend.inBuf, hend.faults, hfits,
    fun hfull => ?_, fun hroom => hfits (hlength.trans hroom)⟩
  · rw [hinput, List.take_left]
    exact htokens.decodeFrom (by decide) 0
  · rw [hinput, List.drop_left, hd]
  · rwa [if_pos hfull] at hcompletion

/-! ### The illegal command word (R127) -/

/-- Both illegal rows have one effect (log 12). -/
theorem exec_illegal_idle {s : State} (hi : s.work.phase = .idle) {r : BitVec 30} {op : BitVec 2} {i : Instr}
    (h : i ∈ [Instr.illegalCmdOp0 r, Instr.illegalCmdRsvd r op]) : exec i s = .next s.illegalCommand := by
  have hidle : s.work.phase ≠ .busy := by simp [hi]
  simp only [List.mem_cons, List.not_mem_nil, or_false] at h
  rcases h with rfl | rfl <;> exact congrArg Host.Outcome.next (if_neg hidle)

/-- A word with OP = 00 or reserved bits set is read as one of the two illegal rows (R62). -/
theorem decodeCommand_illegal {w : Word} (h : w.extractLsb' 0 2 = 0 ∨ w.extractLsb' 2 30 ≠ 0) :
    decodeCommand w ∈ [Instr.illegalCmdOp0 (w.extractLsb' 2 30),
      Instr.illegalCmdRsvd (w.extractLsb' 2 30) (w.extractLsb' 0 2)] := by
  unfold decodeCommand
  by_cases hop : w.extractLsb' 0 2 = 0
  · simp only [if_pos hop, List.mem_cons, true_or]
  · simp only [if_neg hop, if_pos (h.resolve_left hop), List.mem_cons, true_or, or_true]

theorem illegalCommand_reg (s : State) :
    s.illegalCommand.reg = { s.reg with result := .illegalCommand, outLen := 0, errOffset := 0 } :=
  completionRegisters_error (code := .illegalCommand) (by decide) 0 s.work.acc.length s.draws s.reg

theorem illegalCommand_status (s : State) : s.illegalCommand.status = 0x00000070 := by
  have hstatus : s.illegalCommand.status = statusWord .illegalCommand .idle := by
    rw [State.status, illegalCommand_reg]
    rfl
  exact hstatus.trans (by decide)

theorem illegalCommand_completion (s : State) :
    s.illegalCommand.completion = Completion.failure .illegalCommand 0 := by
  rw [State.completion, illegalCommand_reg]
  rfl

theorem illegalCommand_read_outBuf (s : State) (a : Nat) :
    s.illegalCommand.outBuf.read a = Config.freeByte s.draws a := by
  rw [State.illegalCommand, State.complete_outBuf, completionOut_error (code := .illegalCommand) (by decide)]
  rfl

/-- Settles O11: both rows and every illegal word come to `State.illegalCommand`. -/
theorem illegalCommandCompletesAtOnce : Obligations.IllegalCommandCompletesAtOnce := by
  unfold Obligations.IllegalCommandCompletesAtOnce
  refine ⟨fun s r op hi i h => ?_, fun s u w hi hn hw => ?_⟩
  · exact ⟨_, exec_illegal_idle hi h, illegalCommand_completion s, illegalCommand_status s,
      illegalCommand_read_outBuf s, rfl, complete_sameButResult .illegalCommand 0 { s with spoiled := false }⟩
  · have hstep : step s = .next u.illegalCommand :=
      (step_wr_cmd hn).trans (exec_illegal_idle ((hostNext_phase hn).trans hi) (decodeCommand_illegal hw))
    have hreg : u.reg = s.reg := by rw [hostNext_frame hn]
    exact ⟨_, hstep, rfl, illegalCommand_status u, hreg ▸ illegalCommand_reg u⟩

/-! ### Waiting, and the instances (R136, R138) -/

/-- Settles O39: the waiting case of the schedule. -/
theorem idleBlockWaits : Obligations.IdleBlockWaits := by
  unfold Obligations.IdleBlockWaits
  intro s hi he
  exact step_idle_nil hi he

/-- A step of the system is a step of one of its blocks, put in that block's place. -/
theorem stepInstance_next {k : Nat} {sys sys' : List State} (h : stepInstance k sys = some (.next sys')) :
    ∃ s t, sys[k]? = some s ∧ step s = .next t ∧ sys' = sys.set k t := by
  unfold stepInstance at h
  cases hs : sys[k]? with
  | none => simp only [hs, reduceCtorEq] at h
  | some s =>
    cases ht : step s <;> simp only [hs, ht, Option.some.injEq, reduceCtorEq] at h
    case next t => exact ⟨s, t, rfl, ht, (Host.Outcome.next.inj h).symm⟩

/-- Settles O44: `List.set` at the place of the block that stepped. -/
theorem instancesShareNothing : Obligations.InstancesShareNothing := by
  unfold Obligations.InstancesShareNothing
  intro k sys sys' h
  obtain ⟨s, t, hs, ht, rfl⟩ := stepInstance_next h
  have hk : k < sys.length := (List.getElem?_eq_some_iff.1 hs).1
  exact ⟨List.length_set, fun j hj => List.getElem?_set_ne (Ne.symm hj), s, t, hs, ht,
    List.getElem?_set_self hk⟩

end Sys2Proof.Machine
end

section
/-!
PROOFS. Reset and hazards (70_reset_and_hazards.md): host writes and reads while BUSY, and reset at any time (O12, O27,
O34, O36).
-/
namespace Sys2Proof.Machine

/-! ### Host writes while BUSY (R142) -/

/-- While BUSY the five command words have one effect, the hazard (R142). -/
theorem exec_command_busy {s : State} (hb : s.work.phase = .busy) {r : BitVec 30} {op : BitVec 2} {i : Instr}
    (h : i ∈ [Instr.pack, Instr.encode, Instr.decode, Instr.illegalCmdOp0 r, Instr.illegalCmdRsvd r op]) :
    exec i s = .next (s.hazard (.registerWrite .cmd)) := by
  simp only [List.mem_cons, List.not_mem_nil, or_false] at h
  rcases h with rfl | rfl | rfl | rfl | rfl <;> exact congrArg Host.Outcome.next (if_pos hb)

/-- Every word is one of the five command rows (R60 to R62). -/
theorem decodeCommand_mem (w : Word) : ∃ r op, decodeCommand w ∈
    [Instr.pack, Instr.encode, Instr.decode, Instr.illegalCmdOp0 r, Instr.illegalCmdRsvd r op] := by
  rcases decodeCommand_cases w with hd | hd | hd | ⟨r, hd⟩ | ⟨r, op, hd⟩
  · exact ⟨0, 0, by simp [hd]⟩
  · exact ⟨0, 0, by simp [hd]⟩
  · exact ⟨0, 0, by simp [hd]⟩
  · exact ⟨r, 0, by simp [hd]⟩
  · exact ⟨r, op, by simp [hd]⟩

/-- While BUSY a write of any register, CMD included, is the hazard that names it (R108). -/
theorem step_wr_busy {s u : State} {index : Nat} {v : Word} {r : RegName} (hb : s.work.phase = .busy)
    (hn : s.hostNext (.wr index v) u) (hr : RegName.ofIndex index = some r) :
    step s = .next (u.hazard (.registerWrite r)) := by
  have hu : u.work.phase = .busy := (hostNext_phase hn).trans hb
  simp only [step_host hn, State.hostMove, State.wrMove, hr]
  by_cases hcmd : r = .cmd
  · subst hcmd
    obtain ⟨_, _, hmem⟩ := decodeCommand_mem v
    exact exec_command_busy hu hmem
  · simp only [if_neg hcmd, Move.outcome, State.writeReg, if_pos hu]

theorem step_wrb_busy {s u : State} {b : Buf} {o : Nat} {v : Byte} (hb : s.work.phase = .busy)
    (hn : s.hostNext (.wrb b o v) u) : step s = .next (u.bufferHazard b o) := by
  have hu : u.work.phase = .busy := (hostNext_phase hn).trans hb
  simp only [step_host hn, State.hostMove, State.wrbMove, if_pos hu, Move.outcome]

theorem step_bind_busy {s u : State} {src : PixelSource} (hb : s.work.phase = .busy)
    (hn : s.hostNext (.bind src) u) : step s = .next u.bindingHazard := by
  have hu : u.work.phase = .busy := (hostNext_phase hn).trans hb
  simp only [step_host hn, State.hostMove, State.bindNow, if_pos hu, Move.outcome]

/-- A store is seen at its own buffer and offset only. -/
theorem store_read (s : State) (b c : Buf) (o a : Nat) (v : Byte) :
    ((s.store b o v).buf c).read a = if b = c ∧ a = o then v else (s.buf c).read a := by
  by_cases hc : b = c
  · subst hc
    rw [State.store_buf_same]
    by_cases ha : a = o
    · rw [if_pos ⟨rfl, ha⟩, ha, Memory.read_write_same]
    · rw [if_neg (fun h => ha h.2), Memory.read_write_other _ _ ha]
  · rw [if_neg (fun h => hc h.1), State.store_buf_other _ _ _ (Ne.symm hc)]

/-- After a byte write while BUSY each byte reads as after the hazard alone, but for the written one, which is a draw
(R110, R142). -/
theorem bufferHazard_read (s : State) (b c : Buf) (o a : Nat) :
    ((s.bufferHazard b o).buf c).read a =
      if b = c ∧ a = o ∧ o < s.cap c then Config.freeByte (s.draws.plus 7) a
      else ((s.hazard (.bufferWrite b)).buf c).read a := by
  rcases bufferHazard_cases b o s with ⟨ho, he⟩ | ⟨ho, he⟩ <;> rw [he]
  · refine (if_neg ?_).symm
    rintro ⟨rfl, -, hlt⟩
    exact Nat.not_lt.2 ho hlt
  · refine (store_read (s.hazard (.bufferWrite b)) b c o a _).trans ?_
    by_cases hw : b = c ∧ a = o
    · obtain ⟨rfl, rfl⟩ := hw
      rw [if_pos ⟨rfl, rfl⟩, if_pos ⟨rfl, rfl, ho⟩]
    · rw [if_neg hw, if_neg fun h => hw ⟨h.1, h.2.1⟩]

/-- Settles O12: the frame of `State.hazard`. -/
theorem commandWriteWhileBusyIsHazard : Obligations.CommandWriteWhileBusyIsHazard := by
  unfold Obligations.CommandWriteWhileBusyIsHazard
  intro s r op hb i hi
  exact ⟨_, exec_command_busy hb hi, rfl, rfl, rfl, fun _ => rfl, Memory.unspecified_read s.draws, rfl, rfl, rfl, rfl,
    rfl⟩

/-- Settles O34: a register write and a binding leave the bytes as `State.hazard` does, a byte write as
`bufferHazard_read` says. -/
theorem hostWriteWhileBusyIsRecorded : Obligations.HostWriteWhileBusyIsRecorded := by
  unfold Obligations.HostWriteWhileBusyIsRecorded
  refine fun s u hb => ⟨fun index r v hr hn => ⟨_, step_wr_busy hb hn hr, ?_⟩,
    fun b o v hn => ⟨_, step_wrb_busy hb hn, ?_⟩, fun src hn => ⟨_, step_bind_busy hb hn, ?_⟩⟩ <;>
    rw [hostNext_frame hn]
  · exact ⟨rfl, Memory.unspecified_read s.draws, fun _ => rfl⟩
  · refine ⟨bufferHazard_faults _ _ _, fun a => ?_, fun a => bufferHazard_read _ b .inBuf o a⟩
    rw [apply_ite (Config.freeByte · a)]
    exact bufferHazard_read _ b .outBuf o a
  · exact ⟨rfl, Memory.unspecified_read s.draws, fun _ => rfl⟩

/-! ### Host reads while BUSY (R143) -/

/-- A register read has a next state, idle or BUSY (R109). -/
theorem step_rd {s u : State} {index : Nat} {r : RegName} (hn : s.hostNext (.rd index) u)
    (hr : RegName.ofIndex index = some r) : step s = .next (u.readObserved r) := by
  simp only [step_host hn, State.hostMove, State.rdMove, hr, Move.outcome]

/-- A byte read in range has a next state, idle or BUSY (R111). -/
theorem step_rdb {s u : State} {b : Buf} {o : Nat} (hn : s.hostNext (.rdb b o) u) (ho : o < s.cap b) :
    step s = .next (u.readByteObserved b o) := by
  rw [← hostNext_cap hn] at ho
  simp only [step_host hn, State.hostMove, State.rdbMove, if_pos ho, Move.outcome]

/-- A running command that no hazard has disturbed shows BUSY = 1 and RESULT = NONE (R17). -/
theorem status_running {s : State} (hb : s.work.phase = .busy) (h : s.Inv) (hc : s.clean) : s.status = 1 := by
  obtain ⟨_, _, _, hres⟩ := h
  obtain ⟨_, _, hresult⟩ := (resultOk_busy hb).1 (hres hc)
  rw [State.status, hresult, hb]
  decide

/-- While BUSY a read of OUT_LEN or ERR_OFFSET answers a draw (R143). -/
theorem readReg_busy {s : State} (hb : s.work.phase = .busy) {r : RegName} (hr : r ∈ [RegName.outLen, .errOffset]) :
    s.readReg r = s.drawWord := by
  simp only [List.mem_cons, List.not_mem_nil, or_false] at hr
  rcases hr with rfl | rfl <;> exact if_pos hb

/-- While BUSY a read of a byte of OUT answers a draw (R143). -/
theorem readByte_outBuf_busy {s : State} (hb : s.work.phase = .busy) (o : Nat) :
    s.readByte .outBuf o = (Config.freeByte s.draws o, { s with draws := s.draws.plus 1 }) :=
  if_pos ⟨rfl, hb⟩

/-- A byte of IN reads its value, idle or BUSY (R111, R143). -/
theorem readByte_inBuf (s : State) (o : Nat) : s.readByte .inBuf o = (s.inBuf.read o, s) :=
  if_neg nofun

/-- Settles O36: the four kinds of read, by what `State.readReg` and `State.readByte` answer while BUSY. -/
theorem readsWhileBusy : Obligations.ReadsWhileBusy := by
  unfold Obligations.ReadsWhileBusy
  intro s u hb hinv hclean
  have phase {ev : Event} (hn : s.hostNext ev u) : u.work.phase = .busy := (hostNext_phase hn).trans hb
  refine ⟨fun p hp hn => ?_, fun o ho hn => ?_, fun p hp hn => ?_, fun o ho hn => ?_⟩
  · have hreg : u.reg = s.reg := by rw [hostNext_frame hn]
    have hstatus : u.status = 1 := (hostNext_status hn).trans (status_running hb hinv hclean)
    simp only [List.mem_cons, List.not_mem_nil, or_false] at hp
    rcases hp with rfl | rfl | rfl | rfl | rfl | rfl | rfl <;>
      simp only [step_rd hn rfl, State.readObserved, State.readReg, hreg, hstatus, State.observe]
  · have hin : u.inBuf = s.inBuf := by rw [hostNext_frame hn]
    simp only [step_rdb (b := .inBuf) hn ho, State.readByteObserved, readByte_inBuf, hin, State.observe]
  · have hdraws : u.draws = s.draws := by rw [hostNext_frame hn]
    simp only [List.mem_cons, List.not_mem_nil, or_false] at hp
    rcases hp with rfl | rfl <;>
      simp [step_rd hn rfl, State.readObserved, readReg_busy (phase hn), State.drawWord, hdraws, State.observe]
  · have hdraws : u.draws = s.draws := by rw [hostNext_frame hn]
    simp only [step_rdb (b := .outBuf) hn ho, State.readByteObserved, readByte_outBuf_busy (phase hn), hdraws,
      State.observe]

/-! ### Reset (R139, R140) -/

/-- Reset has a next state, idle or BUSY. -/
theorem step_reset {s u : State} (hn : s.hostNext .reset u) : step s = .next u.resetNow := by
  rw [step_host hn]
  rfl

theorem resetNow_status (s : State) : s.resetNow.status = 0 := by
  show statusWord .none .idle = 0
  decide

/-- Settles O27: the frame of `State.resetNow`. -/
theorem resetAbandonsCommand : Obligations.ResetAbandonsCommand := by
  unfold Obligations.ResetAbandonsCommand
  intro s u hn
  refine ⟨_, step_reset hn, resetNow_status u, rfl, rfl, rfl, rfl, ?_⟩
  rw [hostNext_frame hn]
  exact ⟨rfl, Memory.unspecified_read s.draws, Memory.unspecified_read (s.draws.plus 1),
    rfl, rfl, rfl, rfl, rfl, rfl⟩

end Sys2Proof.Machine
end

section
/-!
PROOFS. One word for each row of the opcode table (30_encoding.md sections 2 to 4): a command word and the packed byte
are encodings of their rows, and each byte pattern is read by its rule (O5).
-/
namespace Sys2Proof.Machine

/-- Settles O5: the command words and the packed byte are what `encode` writes, the tokens one case each of
`decodeToken`. -/
theorem specEncodingsDecode : Obligations.SpecEncodingsDecode := by
  unfold Obligations.SpecEncodingsDecode
  refine ⟨?pack, ?encode, ?decode, ?op0, ?rsvd, ?pixel8, ?lit, ?run, ?esc, ?escValue, ?count0, ?truncCount,
    ?truncValue⟩
  case pack => exact decodeCommand_of_encode rfl rfl
  case encode => exact decodeCommand_of_encode rfl rfl
  case decode => exact decodeCommand_of_encode rfl rfl
  case op0 => exact decodeCommand_of_encode rfl rfl
  case rsvd => exact decodeCommand_of_encode rfl rfl
  case pixel8 => exact decodePacked_of_encode rfl
  case lit => exact decodeToken_lit (by decide) []
  case run => exact decodeToken_run 0x01 (by decide) (by decide) 0x41 []
  case esc => exact decodeToken_esc 0x01 []
  case escValue => exact decodeToken_illegalEscValue (by decide) []
  case count0 => exact decodeToken_illegalCount0 0x01 [0x07]
  case truncCount => exact decodeToken_truncCount 0x01
  case truncValue => exact decodeToken_truncValue 0x01 (by decide)

end Sys2Proof.Machine
end
